-- ==== Sys2Proof/Word.lean ====
section
/-! DEFINITION. The command word, its plain field types, and the two closed operand types (handle, device type) that every later file speaks of. -/

namespace Sys2Proof

/-- An unsigned 8-bit value: a colour component, a wire byte, a pin or a channel number (30_encoding.md R78). -/
abbrev Byte := BitVec 8

/-- One command: a 64-bit word, delivered whole (30_encoding.md R70, R80). -/
abbrev CmdWord := BitVec 64

/-- The operand `HV` (30_encoding.md R75): `strip` (HV = 1) names the block's one strip context, `null` (HV = 0) is the
source's null or absent handle. -/
inductive Handle where
  | null
  | strip
  deriving DecidableEq, Repr

/-- The closed set of device types a strip can have (30_encoding.md R76, codes 0 to 6). Code 7 is not a device type, so it
has no constructor here: the state can never hold it (10_state.md R24). -/
inductive DeviceType where
  | none
  | ws2812
  | ws2812b
  | ws2812d
  | ws2813
  | ws2815
  | ws281x
  deriving DecidableEq, Repr

/-- The 3-bit operand `DTYPE` (30_encoding.md R76): a device type, or code 7, the source's "unrecognized device type",
which decodes (R79) and is answered by the command's own rule. -/
inductive DType where
  | known (t : DeviceType)
  | unrecognized
  deriving DecidableEq, Repr

end Sys2Proof
end

