-- ==== Sys2Proof/Syntax.lean ====
section
/-! DEFINITION. The instruction set: one constructor per row of spec/opcode_table.json, in the table's order. -/

namespace Sys2Proof

/-- A decoded command (30_encoding.md R72): each constructor carries exactly the fields its row uses. -/
inductive Instr where
  /-- INITIALIZE, OP 0x0 (R101). -/
  | initStrip (h : Handle)
  /-- CREATE, OP 0x1 (R102 to R105). -/
  | create (h : Handle) (dtype : DType) (len : BitVec 16) (maxc : Byte)
  /-- DESTROY, OP 0x2 (R106). -/
  | destroy (h : Handle)
  /-- SET_PIXEL, OP 0x3 (R112). -/
  | setPixel (h : Handle) (idx : BitVec 16) (r g b : Byte)
  /-- FILL_BUFFER, OP 0x4 (R108). -/
  | fillBuffer (h : Handle)
  /-- SET_TIMINGS, OP 0x5 (R133): no handle operand. -/
  | setTimings (dtype : DType)
  /-- DERIVE_PULSES, OP 0x6 (R136). -/
  | derivePulses (h : Handle)
  /-- ENCODE, OP 0x7 (R138 to R142). -/
  | encode (h : Handle)
  /-- BIND, OP 0x8 (R172). -/
  | bind (h : Handle) (pin chan : Byte)
  /-- TRANSMIT, OP 0x9 (R175 to R180). -/
  | transmit (h : Handle)
  deriving DecidableEq, Repr

end Sys2Proof
end

