-- ==== Sys2Proof/WellFormed.lean ====
section
/-! DEFINITION. Which instructions have an encoding. A decoded `Instr` carries its operands in fields of exactly the width the command word gives them (30_encoding.md R71), so every `Instr` term is well-formed by its type. What can be ill-formed is an instruction as a programmer writes it, with operands of any size: `AsmLine`, whose check is R87's. -/

namespace Sys2Proof

/-- A device-type operand as it is written (30_encoding.md R86): a name of R76's table, or `#n`. -/
inductive AsmDType where
  | named (t : DeviceType)
  | code (n : Nat)
  deriving DecidableEq, Repr

/-- One line of an assembler program (30_encoding.md R86), operands still natural numbers, and the one
pseudo-instruction `SHOW` (R88). -/
inductive AsmLine where
  | initStrip (h : Handle)
  | create (h : Handle) (dtype : AsmDType) (len maxc : Nat)
  | destroy (h : Handle)
  | setPixel (h : Handle) (idx r g b : Nat)
  | fillBuffer (h : Handle)
  | setTimings (dtype : AsmDType)
  | derivePulses (h : Handle)
  | encode (h : Handle)
  | bind (h : Handle) (pin chan : Nat)
  | transmit (h : Handle)
  | showFrame (h : Handle)
  deriving DecidableEq, Repr

/-- `#n` is written with `n` from 0 to 7 (30_encoding.md R86). -/
def AsmDType.wellFormed : AsmDType → Bool
  | .named _ => true
  | .code n => n < 8

/-- Every operand fits its field (30_encoding.md R87): `len` and `idx` up to 65535; `maxc`, `r`, `g`, `b`, `pin` and
`chan` up to 255. A line that does not meet this has no encoding. -/
def AsmLine.wellFormed : AsmLine → Bool
  | .initStrip _ => true
  | .create _ dtype len maxc => dtype.wellFormed && decide (len < 65536) && decide (maxc < 256)
  | .destroy _ => true
  | .setPixel _ idx r g b => decide (idx < 65536) && decide (r < 256) && decide (g < 256) && decide (b < 256)
  | .fillBuffer _ => true
  | .setTimings dtype => dtype.wellFormed
  | .derivePulses _ => true
  | .encode _ => true
  | .bind _ pin chan => decide (pin < 256) && decide (chan < 256)
  | .transmit _ => true
  | .showFrame _ => true

end Sys2Proof
end

