-- ==== Sys2Proof/Decode.lean ====
section
/-! DEFINITION. The decoder, total on all 2^64 words, and after it the encoder, both written from the field table of 30_encoding.md R71 and the opcode map R72; the opcode table's mask and match values; and the host's `decodeTableWord`. -/

namespace Sys2Proof

/-- Why the decoder refuses a word (30_encoding.md R79). -/
inductive DecodeError where
  /-- `OP` is in 0xA to 0xF: X_RESERVED_OPCODE. -/
  | reservedOpcode
  /-- A bit outside the opcode's used fields is set: X_NONZERO_UNUSED. -/
  | nonzeroUnused
  deriving DecidableEq, Repr

/-- The fields of a command word (30_encoding.md R71). `len` is also `IDX`, `r` also `PIN`, `g` also `CHAN`. -/
structure Fields where
  op       : BitVec 4
  hv       : BitVec 1
  dtype    : BitVec 3
  maxc     : BitVec 8
  len      : BitVec 16
  r        : BitVec 8
  g        : BitVec 8
  b        : BitVec 8
  reserved : BitVec 8
  deriving DecidableEq, Repr

/-- Cut a word into its fields at the bit positions of R71. -/
def Fields.ofWord (w : CmdWord) : Fields where
  op       := w.extractLsb' 0 4
  hv       := w.extractLsb' 4 1
  dtype    := w.extractLsb' 5 3
  maxc     := w.extractLsb' 8 8
  len      := w.extractLsb' 16 16
  r        := w.extractLsb' 32 8
  g        := w.extractLsb' 40 8
  b        := w.extractLsb' 48 8
  reserved := w.extractLsb' 56 8

/-- A field's bits at their place in a word: bit 0 of the field at bit `lo`. -/
def fieldAt {n : Nat} (lo : Nat) (v : BitVec n) : CmdWord := v.setWidth 64 <<< lo

/-- Put fields back into a word: each at the lowest of its bit positions in R71's table. -/
def Fields.toWord (f : Fields) : CmdWord :=
  fieldAt 0 f.op ||| fieldAt 4 f.hv ||| fieldAt 5 f.dtype ||| fieldAt 8 f.maxc ||| fieldAt 16 f.len
    ||| fieldAt 32 f.r ||| fieldAt 40 f.g ||| fieldAt 48 f.b ||| fieldAt 56 f.reserved

/-- A word with every field zero but `OP`: what an instruction's encoding starts from. -/
def Fields.blank (op : BitVec 4) : Fields :=
  { op := op, hv := 0, dtype := 0, maxc := 0, len := 0, r := 0, g := 0, b := 0, reserved := 0 }

/-- `HV` to handle (30_encoding.md R75). -/
def Handle.ofBit (hv : BitVec 1) : Handle := if hv = 1 then .strip else .null

/-- Handle to `HV`. -/
def Handle.bit : Handle → BitVec 1
  | .null => 0
  | .strip => 1

/-- The device type's code (30_encoding.md R76). -/
def DeviceType.code : DeviceType → BitVec 3
  | .none => 0
  | .ws2812 => 1
  | .ws2812b => 2
  | .ws2812d => 3
  | .ws2813 => 4
  | .ws2815 => 5
  | .ws281x => 6

/-- `DTYPE` from its three bits (30_encoding.md R76): code 7 is not a device type. -/
def DType.ofCode (c : BitVec 3) : DType :=
  if c = 0 then .known .none
  else if c = 1 then .known .ws2812
  else if c = 2 then .known .ws2812b
  else if c = 3 then .known .ws2812d
  else if c = 4 then .known .ws2813
  else if c = 5 then .known .ws2815
  else if c = 6 then .known .ws281x
  else .unrecognized

/-- `DTYPE`'s three bits. -/
def DType.code : DType → BitVec 3
  | .known t => t.code
  | .unrecognized => 7

/-- Every field but `OP` and `HV` is zero: the rows that use `HV` alone (30_encoding.md R72, R73). -/
def Fields.onlyHandle (f : Fields) : Bool :=
  f.dtype = 0 ∧ f.maxc = 0 ∧ f.len = 0 ∧ f.r = 0 ∧ f.g = 0 ∧ f.b = 0 ∧ f.reserved = 0

/-- CREATE's unused fields are zero: bits `[63:32]` (30_encoding.md R72, R73; 40_strip_manager.md R102). -/
def Fields.onlyCreate (f : Fields) : Bool := f.r = 0 ∧ f.g = 0 ∧ f.b = 0 ∧ f.reserved = 0

/-- SET_PIXEL's unused fields are zero: bits `[15:5]` and `[63:56]` (40_strip_manager.md R112). -/
def Fields.onlyPixel (f : Fields) : Bool := f.dtype = 0 ∧ f.maxc = 0 ∧ f.reserved = 0

/-- SET_TIMINGS' unused fields are zero: every bit outside `[3:0]` and `[7:5]`, `HV` too (41_protocol_encoder.md R133). -/
def Fields.onlyDType (f : Fields) : Bool :=
  f.hv = 0 ∧ f.maxc = 0 ∧ f.len = 0 ∧ f.r = 0 ∧ f.g = 0 ∧ f.b = 0 ∧ f.reserved = 0

/-- BIND's unused fields are zero: bits `[15:5]`, `[31:16]` and `[63:48]` (42_transmitter.md R172). -/
def Fields.onlyBind (f : Fields) : Bool := f.dtype = 0 ∧ f.maxc = 0 ∧ f.len = 0 ∧ f.b = 0 ∧ f.reserved = 0

/-- An instruction whose unused fields are zero, or the refusal of a nonzero unused bit (30_encoding.md R73). -/
def admitIf (unusedZero : Bool) (i : Instr) : Except DecodeError Instr :=
  if unusedZero then .ok i else .error .nonzeroUnused

/-- The decision of 30_encoding.md R79 on a word's fields: the opcode first, then the unused bits, then the one command
of R72. -/
def decodeFields (f : Fields) : Except DecodeError Instr :=
  let h := Handle.ofBit f.hv
  let d := DType.ofCode f.dtype
  if f.op = 0x0 then admitIf f.onlyHandle (.initStrip h)
  else if f.op = 0x1 then admitIf f.onlyCreate (.create h d f.len f.maxc)
  else if f.op = 0x2 then admitIf f.onlyHandle (.destroy h)
  else if f.op = 0x3 then admitIf f.onlyPixel (.setPixel h f.len f.r f.g f.b)
  else if f.op = 0x4 then admitIf f.onlyHandle (.fillBuffer h)
  else if f.op = 0x5 then admitIf f.onlyDType (.setTimings d)
  else if f.op = 0x6 then admitIf f.onlyHandle (.derivePulses h)
  else if f.op = 0x7 then admitIf f.onlyHandle (.encode h)
  else if f.op = 0x8 then admitIf f.onlyBind (.bind h f.r f.g)
  else if f.op = 0x9 then admitIf f.onlyHandle (.transmit h)
  else .error .reservedOpcode

/-- The decoder (30_encoding.md R79): every 64-bit word is one command or one named refusal, whatever the state (R70). -/
def decode (w : CmdWord) : Except DecodeError Instr := decodeFields (Fields.ofWord w)

/-- The fields of an instruction's word (30_encoding.md R71, R72); every unused field is zero (R73). -/
def Instr.fields : Instr → Fields
  | .initStrip h => { Fields.blank 0x0 with hv := h.bit }
  | .create h d len maxc => { Fields.blank 0x1 with hv := h.bit, dtype := d.code, len := len, maxc := maxc }
  | .destroy h => { Fields.blank 0x2 with hv := h.bit }
  | .setPixel h idx r g b => { Fields.blank 0x3 with hv := h.bit, len := idx, r := r, g := g, b := b }
  | .fillBuffer h => { Fields.blank 0x4 with hv := h.bit }
  | .setTimings d => { Fields.blank 0x5 with dtype := d.code }
  | .derivePulses h => { Fields.blank 0x6 with hv := h.bit }
  | .encode h => { Fields.blank 0x7 with hv := h.bit }
  | .bind h pin chan => { Fields.blank 0x8 with hv := h.bit, r := pin, g := chan }
  | .transmit h => { Fields.blank 0x9 with hv := h.bit }

/-- The encoder: the one word of an instruction (30_encoding.md R70, R71). -/
def encode (i : Instr) : CmdWord := i.fields.toWord

/-- A row of spec/opcode_table.json: a word `w` is the row's when `w &&& mask = pattern` (30_encoding.md R73). -/
structure OpcodeRow where
  mnemonic : String
  mask     : CmdWord
  pattern  : CmdWord
  deriving DecidableEq, Repr

/-- The row an instruction is encoded by, its mask and match copied from spec/opcode_table.json. -/
def Instr.row : Instr → OpcodeRow
  | .initStrip _ => ⟨"INITIALIZE", 0xffffffffffffffef, 0x0⟩
  | .create _ _ _ _ => ⟨"CREATE", 0xffffffff0000000f, 0x1⟩
  | .destroy _ => ⟨"DESTROY", 0xffffffffffffffef, 0x2⟩
  | .setPixel _ _ _ _ _ => ⟨"SET_PIXEL", 0xff0000000000ffef, 0x3⟩
  | .fillBuffer _ => ⟨"FILL_BUFFER", 0xffffffffffffffef, 0x4⟩
  | .setTimings _ => ⟨"SET_TIMINGS", 0xffffffffffffff1f, 0x5⟩
  | .derivePulses _ => ⟨"DERIVE_PULSES", 0xffffffffffffffef, 0x6⟩
  | .encode _ => ⟨"ENCODE", 0xffffffffffffffef, 0x7⟩
  | .bind _ _ _ => ⟨"BIND", 0xffff0000ffffffef, 0x8⟩
  | .transmit _ => ⟨"TRANSMIT", 0xffffffffffffffef, 0x9⟩

/-- The ten rows of the opcode table, in its order. -/
def opcodeRows : List OpcodeRow :=
  [ (Instr.initStrip .null).row, (Instr.create .null (.known .none) 0 0).row, (Instr.destroy .null).row,
    (Instr.setPixel .null 0 0 0 0).row, (Instr.fillBuffer .null).row, (Instr.setTimings (.known .none)).row,
    (Instr.derivePulses .null).row, (Instr.encode .null).row, (Instr.bind .null 0 0).row, (Instr.transmit .null).row ]

/-- A word lies in a row of the opcode table. -/
def OpcodeRow.admits (row : OpcodeRow) (w : CmdWord) : Bool := w &&& row.mask = row.pattern

/-- The device-type operand of a written line (30_encoding.md R86). -/
def AsmDType.operand : AsmDType → DType
  | .named t => .known t
  | .code n => DType.ofCode (BitVec.ofNat 3 n)

/-- The commands a written line stands for: one, or `SHOW`'s three in order (30_encoding.md R88). -/
def AsmLine.expand : AsmLine → List Instr
  | .initStrip h => [.initStrip h]
  | .create h d len maxc => [.create h d.operand (BitVec.ofNat 16 len) (BitVec.ofNat 8 maxc)]
  | .destroy h => [.destroy h]
  | .setPixel h idx r g b => [.setPixel h (BitVec.ofNat 16 idx) (BitVec.ofNat 8 r) (BitVec.ofNat 8 g) (BitVec.ofNat 8 b)]
  | .fillBuffer h => [.fillBuffer h]
  | .setTimings d => [.setTimings d.operand]
  | .derivePulses h => [.derivePulses h]
  | .encode h => [.encode h]
  | .bind h pin chan => [.bind h (BitVec.ofNat 8 pin) (BitVec.ofNat 8 chan)]
  | .transmit h => [.transmit h]
  | .showFrame h => [.fillBuffer h, .encode h, .transmit h]

/-- The assembler: the words of a line, or none where an operand does not fit its field (30_encoding.md R87). -/
def assemble (l : AsmLine) : Option (List CmdWord) :=
  if l.wellFormed then some (l.expand.map encode) else none

/-- The instruction the decoder reads from a word numbered as the opcode table numbers it. The block takes its words whole
(30_encoding.md R80), so there is no byte order to undo; `nbits` below 64 leaves the bits above it zero, and a number with
a bit above 63 is no command word. -/
def decodeTableWord (nbits w : Nat) : Option Instr :=
  let v := w % 2 ^ nbits
  if v < 2 ^ 64 then
    match decode (BitVec.ofNat 64 v) with
    | .ok i => some i
    | .error _ => none
  else none

end Sys2Proof
end

