-- ==== Sys2Proof/Machine/Formats.lean ====
section
/-! DEFINITION. The data formats the block reads, writes and exchanges with its oracles: pixels, timing rows, pulse descriptors, index-addressed memories, allocator and peripheral requests and answers. Plain data; every operation on it stands in a later file. -/

namespace Sys2Proof.Machine

/-- "three unsigned 8-bit color components (red, green, blue)" (20_memory.md R51). -/
structure Pixel where
  r : Byte
  g : Byte
  b : Byte
  deriving DecidableEq, Repr

/-- The line's two levels: 1 is high, 0 is low (30_encoding.md R85). -/
inductive Level where
  | low
  | high
  deriving DecidableEq, Repr

/-- A pulse descriptor (10_state.md R37): a level and a natural number of ticks, then a second level and its ticks. -/
structure PulseDescriptor where
  level0    : Level
  duration0 : Nat
  level1    : Level
  duration1 : Nat
  deriving DecidableEq, Repr

/-- The five timing registers of a strip, 32-bit counts of nanoseconds (10_state.md R24, R30). -/
structure Timing where
  t0h     : BitVec 32
  t0l     : BitVec 32
  t1h     : BitVec 32
  t1l     : BitVec 32
  resetNs : BitVec 32
  deriving DecidableEq, Repr

/-- The four canonical descriptors (10_state.md R38). -/
structure Canonical where
  pd0  : PulseDescriptor
  pd1  : PulseDescriptor
  pd0r : PulseDescriptor
  pd1r : PulseDescriptor
  deriving DecidableEq, Repr

/-- An index-addressed memory of `size` elements (20_memory.md R50): the listed elements, indices strictly rising. What an
unlisted element of the size reads as is the memory's own (Machine/Memory.lean). For `WIRE` the cells are `Host.Cell`s. -/
structure Memory (α : Type) where
  size  : Nat
  cells : List (Nat × α)
  deriving DecidableEq, Repr

/-- What an allocation is for (00_scope.md R14; 40_strip_manager.md R103; 41_protocol_encoder.md R139). -/
inductive AllocKind where
  | pix
  | wire
  | tx
  deriving DecidableEq, Repr

/-- The allocator's answer (00_scope.md R14). -/
inductive AllocAnswer where
  | ok
  | fail
  deriving DecidableEq, Repr, Inhabited

/-- The name of a peripheral call (42_transmitter.md R171). -/
inductive PeriphOp where
  | stopChannel
  | disableInterrupts
  | setClockDivider
  | configurePin
  | installDriver
  | write
  deriving DecidableEq, Repr

/-- A peripheral call with its arguments (42_transmitter.md R171, R172, R176). `configurePin` asks for an output, initial
level low. -/
inductive PeriphCall where
  | stopChannel (chan : Byte)
  | disableInterrupts (chan : Byte)
  | setClockDivider (chan : Byte) (divider : Nat)
  | configurePin (pin : Byte)
  | installDriver (chan : Byte)
  | write (chan : Byte) (seq : List PulseDescriptor) (waitForCompletion : Bool)
  deriving DecidableEq, Repr

/-- The peripheral's answer: success, or an opaque 32-bit code (42_transmitter.md R171). -/
inductive PeriphAnswer where
  | ok
  | err (code : BitVec 32)
  deriving DecidableEq, Repr, Inhabited

end Sys2Proof.Machine
end

