-- ==== Sys2Proof/Config.lean ====
section
/-! DEFINITION. What is fixed for this hardware (DUR_MAX) and what the spec leaves free: the open parameters TICK_NS and DIVIDER, and the oracles' answers. The free values are opaque constants with no body: no proof can see one. -/

namespace Sys2Proof

open Sys2Proof.Machine

/-- `DUR_MAX`, the largest duration a descriptor field can carry, in ticks (00_scope.md R9; PRESUMED by the spec from
general knowledge, log 9). -/
def Config.durMax : Nat := 32767

/-- One less than `TICK_NS`, so that `TICK_NS >= 1` whatever it is (00_scope.md R9; log 7). -/
opaque Config.tickPred : Nat

/-- `TICK_NS`, nanoseconds per tick: OPEN, at least 1 (00_scope.md R9, 41_protocol_encoder.md R130; log 7). -/
def Config.tickNs : Nat := Config.tickPred + 1

/-- `DIVIDER`, the clock divider BIND programs: OPEN (00_scope.md R9, 42_transmitter.md R174; log 8). -/
opaque Config.divider : Nat

/-- A free answer of the allocator: to the request of that number, of that kind and size (00_scope.md R14; log 3). -/
opaque Config.allocAnswer : Nat → AllocKind → Nat → AllocAnswer

/-- A free answer of the peripheral: to the request of that number, for that call (00_scope.md R14; log 4). -/
opaque Config.periphAnswer : Nat → PeriphCall → PeriphAnswer

/-- A free length for `Prefix(seq)`: how much of the sequence, at the request of that number (00_scope.md R14,
42_transmitter.md R178; log 5). A length beyond the sequence's means all of it. -/
opaque Config.leadingLength : Nat → List PulseDescriptor → Nat

end Sys2Proof
end

