-- ==== Sys2Proof/Machine/State.lean ====
section
/-! DEFINITION. The machine's state as plain data, the reasons a step can stop, and the state after reset. -/

namespace Sys2Proof.Machine

/-- The per-strip state machine (10_state.md R25): codes 0, 1, 2; code 3 is never held and has no constructor. -/
inductive Lifecycle where
  | uninitialized
  | created
  | destroyed
  deriving DecidableEq, Repr

/-- The faults of 60_exceptions.md R206: marks for admitted commands to which the source gives no behaviour. Each ends the
run at the command that raised it (R220); all are safe, since the model claims nothing of what the hardware does there. -/
inductive Fault where
  /-- F_LIFECYCLE. Raised by CREATE on a strip that is not Uninitialized and by INITIALIZE on a Created one. Safe. -/
  | lifecycle
  /-- F_PIXEL. Raised by SET_PIXEL for a null handle, a strip that is not Created, or an index out of range. Safe. -/
  | pixel
  /-- F_TIMING. Raised by ENCODE when a canonical duration is 0 ticks or above DUR_MAX. Safe. -/
  | timing
  /-- F_UNWRITTEN. Raised by ENCODE when a wire cell was never written since CREATE. Safe. -/
  | unwritten
  /-- F_UNBOUND. Raised by TRANSMIT when BOUND is absent. Safe. -/
  | unbound
  /-- F_NOT_ENCODED. Raised by TRANSMIT when TXBUF is Absent. Safe. -/
  | notEncoded
  deriving DecidableEq, Repr

/-- The refusals of 60_exceptions.md R207, raised by the decoder, and the pipeline's own. -/
inductive Refusal where
  /-- The instruction has no meaning in this model yet. Raised by exec's arms alone; none is left. Safe. -/
  | notModelled (mnemonic : String)
  /-- X_RESERVED_OPCODE. Raised by the decoder: OP in 0xA to 0xF. Safe. -/
  | reservedOpcode
  /-- X_NONZERO_UNUSED. Raised by the decoder: a bit outside the opcode's used fields is 1. Safe. -/
  | nonzeroUnused
  deriving DecidableEq, Repr

/-- Which argument was invalid (30_encoding.md R83, 60_exceptions.md R201). -/
inductive ArgCause where
  | handle
  | deviceType
  | state
  deriving DecidableEq, Repr

/-- Which size was invalid (30_encoding.md R83, 60_exceptions.md R202). -/
inductive SizeCause where
  | length
  | bufferLength
  deriving DecidableEq, Repr

/-- A command's result with its payload (30_encoding.md R83). -/
inductive Result where
  | ok
  /-- SET_TIMINGS' success: the five timing values (41_protocol_encoder.md R133). -/
  | okTiming (t : Timing)
  /-- DERIVE_PULSES' success: the four canonical descriptors (41_protocol_encoder.md R136). -/
  | okPulses (c : Canonical)
  | invalidArgument (cause : ArgCause)
  | invalidSize (cause : SizeCause)
  | outOfMemory (which : AllocKind)
  /-- The call that failed and the peripheral's code, unmodified (60_exceptions.md R204). -/
  | peripheralError (call : PeriphOp) (code : BitVec 32)
  deriving DecidableEq, Repr

/-- An event of the output trace (42_transmitter.md R181, R182). -/
inductive Event where
  /-- The peripheral on `chan` emitted the whole sequence. -/
  | emitted (chan : Byte) (seq : List PulseDescriptor)
  /-- The peripheral on `chan` failed with `code` after emitting the leading part `part`. -/
  | emittedPartial (chan : Byte) (part : List PulseDescriptor) (code : BitVec 32)
  deriving DecidableEq, Repr

/-- A question the block has put to an oracle: a draw of 00_scope.md R14 (the model's own record, log 6). -/
inductive Request where
  | alloc (kind : AllocKind) (n : Nat)
  | periph (call : PeriphCall)
  | leading (seq : List PulseDescriptor)
  deriving DecidableEq, Repr

/-- The strip context (10_state.md R24: these fields "and no other"). -/
structure Ctx where
  lifecycle  : Lifecycle
  deviceType : DeviceType
  length     : BitVec 16
  maxc       : Byte
  timing     : Timing
  /-- Absent, or the memory `PIX` (R32). -/
  pixels     : Option (Memory Pixel)
  /-- Absent, or the memory `WIRE` (R33). -/
  wire       : Option (Memory Byte)
  /-- `Absent` (none) or `Valid(seq)` (R35). -/
  txbuf      : Option (List PulseDescriptor)
  /-- Absent, or the pin and the channel of the last successful BIND (R36). -/
  bound      : Option (Byte × Byte)
  deriving DecidableEq, Repr

/-- The two oracle agents as the model holds them (00_scope.md R8, R14; logs 3 to 6): answers already fixed, in the order
they will be given, and the requests made so far. Where a list is empty, the answer is a free value of Config. -/
structure Oracles where
  alloc   : List AllocAnswer
  periph  : List PeriphAnswer
  /-- Lengths for `Prefix(seq)`. -/
  leading : List Nat
  /-- The requests made so far, oldest first. -/
  asked   : List Request
  deriving DecidableEq, Repr

/-- The open parameters of the step relation, fixed for a run (10_state.md R45, 00_scope.md R9; logs 7, 8). -/
structure Params where
  tickNs  : Nat
  divider : Nat
  deriving DecidableEq, Repr

/-- The state of a run. -/
structure State where
  /-- The strip context (10_state.md R24). -/
  ctx         : Ctx
  /-- Clear (none) or `F_<name>` (10_state.md R42; log 10). -/
  faultMark   : Option Fault
  /-- Clear (none) or `X_<name>` (10_state.md R42; log 10). -/
  refusalMark : Option Refusal
  /-- The output trace, oldest event first (10_state.md R43). -/
  trace       : List Event
  /-- The results given so far, oldest first: the host's observation (00_scope.md R16a), which no command reads
  (10_state.md R23; log 2). -/
  results     : List Result
  /-- The command words the host has issued and the block has not run, next one first (10_state.md R22; log 1). -/
  commands    : List CmdWord
  oracles     : Oracles
  params      : Params
  deriving DecidableEq, Repr

/-- The five timing registers at zero: the null state's, and the none row's (10_state.md R31, R40). -/
def Timing.zero : Timing := ⟨0, 0, 0, 0, 0⟩

/-- The context after power-on reset (10_state.md R41): the last column of R24's table. -/
def Ctx.reset : Ctx where
  lifecycle  := .uninitialized
  deviceType := .none
  length     := 0
  maxc       := 0
  timing     := Timing.zero
  pixels     := none
  wire       := none
  txbuf      := none
  bound      := none

/-- The state after power-on reset (10_state.md R41, 70_reset_and_hazards.md R230). No command is pending, no oracle has
fixed an answer, and the open parameters are Config's free values. -/
def State.reset : State where
  ctx         := Ctx.reset
  faultMark   := none
  refusalMark := none
  trace       := []
  results     := []
  commands    := []
  oracles     := { alloc := [], periph := [], leading := [], asked := [] }
  params      := { tickNs := Config.tickNs, divider := Config.divider }

end Sys2Proof.Machine
end

