-- ==== Sys2Proof/Machine/Memory.lean ====
section
/-! DEFINITION. The two index-addressed memories PIX and WIRE (20_memory.md): one canonical form, one read and one write each. -/

namespace Sys2Proof.Machine

/-- The element listed at index `i`, if any. -/
def findCell {α : Type} (i : Nat) : List (Nat × α) → Option α
  | [] => none
  | (j, u) :: rest => if i = j then some u else findCell i rest

/-- List `v` at index `i`, keeping the indices rising. -/
def insertCell {α : Type} (i : Nat) (v : α) : List (Nat × α) → List (Nat × α)
  | [] => [(i, v)]
  | (j, u) :: rest =>
    if i < j then (i, v) :: (j, u) :: rest
    else if i = j then (i, v) :: rest
    else (j, u) :: insertCell i v rest

/-- Unlist index `i`. -/
def eraseCell {α : Type} (i : Nat) : List (Nat × α) → List (Nat × α)
  | [] => []
  | (j, u) :: rest => if i = j then rest else (j, u) :: eraseCell i rest

/-- Every index is above `lo` and the indices rise strictly. -/
def risingFrom {α : Type} (lo : Nat) : List (Nat × α) → Bool
  | [] => true
  | (j, _) :: rest => decide (lo ≤ j) && risingFrom (j + 1) rest

/-- The canonical form: indices strictly rising and below the size, and no element equal to `blank`, what an unlisted
element reads as (`none` where it holds no value). Equal memories are then equal data. -/
def Memory.wf {α : Type} [DecidableEq α] (blank : Option α) (m : Memory α) : Bool :=
  risingFrom 0 m.cells && m.cells.all fun c => decide (c.1 < m.size) && decide (some c.2 ≠ blank)

/-- The listed element at index `i` of the memory. -/
def Memory.cell? {α : Type} (m : Memory α) (i : Nat) : Option α :=
  if i < m.size then findCell i m.cells else none

/-- List `v` at index `i`; an index outside the memory is no element and takes no write (log 13). -/
def Memory.put {α : Type} (m : Memory α) (i : Nat) (v : α) : Memory α :=
  if i < m.size then { m with cells := insertCell i v m.cells } else m

/-- Unlist index `i`. -/
def Memory.clear {α : Type} (m : Memory α) (i : Nat) : Memory α := { m with cells := eraseCell i m.cells }

/-- A memory of `n` elements with nothing listed. -/
def Memory.fresh {α : Type} (n : Nat) : Memory α := { size := n, cells := [] }

/-- The pixel every element of `PIX` starts as: "(0,0,0) (off)" (40_strip_manager.md R104). -/
def Pixel.off : Pixel := ⟨0, 0, 0⟩

/-- `MemRead(PIX, i, 1)` (00_scope.md R12): an unlisted pixel is (0, 0, 0). -/
def readPixel (m : Memory Pixel) (i : Nat) : Pixel := (m.cell? i).getD Pixel.off

/-- `MemWrite(PIX, i, 1, p)` (00_scope.md R12). -/
def writePixel (m : Memory Pixel) (i : Nat) (p : Pixel) : Memory Pixel :=
  if p = Pixel.off then m.clear i else m.put i p

/-- `MemRead(WIRE, i, 1)` (00_scope.md R12): `none` where the cell holds no value (20_memory.md R53). -/
def readByte (m : Memory Byte) (i : Nat) : Option Byte := m.cell? i

/-- `MemWrite(WIRE, i, 1, v)` (00_scope.md R12). -/
def writeByte (m : Memory Byte) (i : Nat) (v : Byte) : Memory Byte := m.put i v

/-- The canonical form of `PIX`: no listed pixel is off. -/
def pixWf (m : Memory Pixel) : Bool := m.wf (some Pixel.off)

/-- The canonical form of `WIRE`: an unlisted cell is unwritten, so any byte may be listed. -/
def wireWf (m : Memory Byte) : Bool := m.wf none

/-- The three writes of FILL_BUFFER's loop body: one pixel's bytes in the order Green, Red, Blue (20_memory.md R55,
40_strip_manager.md R108). -/
def writeGroup (w : Memory Byte) (i : Nat) (p : Pixel) : Memory Byte :=
  writeByte (writeByte (writeByte w (3 * i) p.g) (3 * i + 1) p.r) (3 * i + 2) p.b

/-- FILL_BUFFER's loop over the pixels `0 .. n - 1` (40_strip_manager.md R108). -/
def serializePixels (pix : Memory Pixel) (w : Memory Byte) : Nat → Memory Byte
  | 0 => w
  | n + 1 => writeGroup (serializePixels pix w n) n (readPixel pix n)

/-- All the values of a list of cells, or none where some cell holds no value. -/
def allValues {α : Type} : List (Option α) → Option (List α)
  | [] => some []
  | none :: _ => none
  | some v :: rest =>
    match allValues rest with
    | none => none
    | some vs => some (v :: vs)

/-- The bytes of the wire buffer in index order, or none where some cell is unwritten (41_protocol_encoder.md R138). -/
def wireBytes (w : Memory Byte) : Option (List Byte) := allValues ((List.range w.size).map (readByte w))

end Sys2Proof.Machine
end

