-- ==== Sys2Proof/Machine/Pulses.lean ====
section
/-! DEFINITION. The core block's arithmetic: tick conversion, the canonical descriptors, the serializer, the reset-frame injector (41_protocol_encoder.md), and the packed descriptor word (30_encoding.md R82). -/

namespace Sys2Proof.Machine

/-- `Ticks(ns) = ns div TICK_NS`, truncating (41_protocol_encoder.md R134). -/
def ticks (tickNs : Nat) (ns : BitVec 32) : Nat := ns.toNat / tickNs

/-- A descriptor of the block: "always `level0 = high`, `level1 = low`" (41_protocol_encoder.md R135). -/
def pulse (high low : Nat) : PulseDescriptor := ⟨.high, high, .low, low⟩

/-- The four canonical descriptors (41_protocol_encoder.md R135). -/
def canonical (tickNs : Nat) (t : Timing) : Canonical where
  pd0  := pulse (ticks tickNs t.t0h) (ticks tickNs t.t0l)
  pd1  := pulse (ticks tickNs t.t1h) (ticks tickNs t.t1l)
  pd0r := pulse (ticks tickNs t.t0h) (ticks tickNs t.resetNs)
  pd1r := pulse (ticks tickNs t.t1h) (ticks tickNs t.resetNs)

/-- A duration that is a pulse and fits the peripheral's field: 1 to DUR_MAX ticks (41_protocol_encoder.md R137). -/
def durationFits (d : Nat) : Bool := decide (1 ≤ d) && decide (d ≤ Config.durMax)

/-- `Representable(ctx)` (41_protocol_encoder.md R137). -/
def representable (tickNs : Nat) (t : Timing) : Bool :=
  durationFits (ticks tickNs t.t0h) && durationFits (ticks tickNs t.t0l) && durationFits (ticks tickNs t.t1h)
    && durationFits (ticks tickNs t.t1l) && durationFits (ticks tickNs t.resetNs)

/-- The descriptor of one bit (41_protocol_encoder.md R140). -/
def bitPulse (c : Canonical) (bit : Bool) : PulseDescriptor := if bit then c.pd1 else c.pd0

/-- The reset variant of one bit's descriptor (41_protocol_encoder.md R141). -/
def resetPulse (c : Canonical) (bit : Bool) : PulseDescriptor := if bit then c.pd1r else c.pd0r

/-- A byte's bits, most significant first: `byte[7 - j]` for `j` in 0 to 7 (20_memory.md R56, 41_protocol_encoder.md R140). -/
def byteBits (v : Byte) : List Bool := (List.range 8).map fun j => v.getLsbD (7 - j)

/-- The bits of the bytes in index order. -/
def frameBits (bytes : List Byte) : List Bool := bytes.flatMap byteBits

/-- The serializer: eight descriptors a byte (41_protocol_encoder.md R140). -/
def serializeBytes (c : Canonical) (bytes : List Byte) : List PulseDescriptor := (frameBits bytes).map (bitPulse c)

/-- The raw last bit: bit 0 of the last byte (41_protocol_encoder.md R141). -/
def lastBit (bytes : List Byte) : Bool :=
  match bytes.getLast? with
  | some v => v.getLsbD 0
  | none => false

/-- The reset-frame injector: replace element `8N - 1` by its reset variant (41_protocol_encoder.md R141). -/
def injectReset (c : Canonical) (bytes : List Byte) (seq : List PulseDescriptor) : List PulseDescriptor :=
  seq.set (8 * bytes.length - 1) (resetPulse c (lastBit bytes))

/-- The whole frame of ENCODE (41_protocol_encoder.md R140, R141). -/
def frameOf (c : Canonical) (bytes : List Byte) : List PulseDescriptor := injectReset c bytes (serializeBytes c bytes)

/-- A level's bit (30_encoding.md R85). -/
def Level.bit : Level → BitVec 1
  | .low => 0
  | .high => 1

/-- The level of a bit. -/
def Level.ofBit (v : BitVec 1) : Level := if v = 1 then .high else .low

/-- The packed form of a descriptor, which exists when both durations are at most DUR_MAX:
`{level1, duration1[14:0], level0, duration0[14:0]}` (30_encoding.md R82; the layout is PRESUMED by the spec, log 9). -/
def packPulse (pd : PulseDescriptor) : Option (BitVec 32) :=
  if pd.duration0 ≤ Config.durMax ∧ pd.duration1 ≤ Config.durMax then
    some (pd.level1.bit ++ BitVec.ofNat 15 pd.duration1 ++ pd.level0.bit ++ BitVec.ofNat 15 pd.duration0)
  else none

/-- The descriptor a packed word stands for, by R82's bit positions. -/
def unpackPulse (v : BitVec 32) : PulseDescriptor where
  level0    := Level.ofBit (v.extractLsb' 15 1)
  duration0 := (v.extractLsb' 0 15).toNat
  level1    := Level.ofBit (v.extractLsb' 31 1)
  duration1 := (v.extractLsb' 16 15).toNat

end Sys2Proof.Machine
end

