-- ==== Sys2Proof/Machine/Timings.lean ====
section
/-! DEFINITION. The timing-constant table (41_protocol_encoder.md R131) and the bytes an LED takes on the wire (40_strip_manager.md R110). -/

namespace Sys2Proof.Machine

/-- `BytesPerLed(t)` (40_strip_manager.md R110): "3 for all non-null variants, 0 for `none`". -/
def bytesPerLed : DeviceType → Nat
  | .none => 0
  | .ws2812 => 3
  | .ws2812b => 3
  | .ws2812d => 3
  | .ws2813 => 3
  | .ws2815 => 3
  | .ws281x => 3

/-- `Timing(t)` (41_protocol_encoder.md R131): T0H, T0L, T1H, T1L, RESET_NS in nanoseconds, total on the seven device types
and with no default row (R132). -/
def timingOf : DeviceType → Timing
  | .none => ⟨0, 0, 0, 0, 0⟩
  | .ws2812 => ⟨350, 800, 700, 600, 50000⟩
  | .ws2812b => ⟨300, 1090, 1090, 320, 280000⟩
  | .ws2812d => ⟨400, 850, 800, 450, 50000⟩
  | .ws2813 => ⟨300, 1090, 1090, 320, 280000⟩
  | .ws2815 => ⟨300, 1090, 1090, 320, 280000⟩
  | .ws281x => ⟨400, 850, 850, 400, 50000⟩

end Sys2Proof.Machine
end

