-- ==== Sys2Proof/Machine/Ops.lean ====
section
/-! DEFINITION. The shared operations of the commands: reporting a result, the null state, the draws, the calls of the peripheral, the output trace, and taking the next command word. -/

namespace Sys2Proof.Machine

/-- What a command's meaning answers. -/
abbrev Answer := Host.Outcome State Fault Refusal

/-- The state with one more result given to the host (00_scope.md R16a). -/
def State.report (s : State) (r : Result) : State := { s with results := s.results ++ [r] }

/-- `return R` (00_scope.md R13): the command ends with its result. This is also how the block takes an exception: an error
is a result and nothing else; no state is saved, no mode changes, no vector is taken, and there is no return from one
(60_exceptions.md R200, R210, R211). -/
def finish (r : Result) (s : State) : Answer := .next (s.report r)

/-- Set the strip context. -/
def State.setCtx (s : State) (c : Ctx) : State := { s with ctx := c }

/-- `NullState(ctx)` (40_strip_manager.md R100): every strip field null or zero; LIFECYCLE and BOUND stay. -/
def Ctx.null (c : Ctx) : Ctx where
  lifecycle  := c.lifecycle
  deviceType := .none
  length     := 0
  maxc       := 0
  timing     := Timing.zero
  pixels     := none
  wire       := none
  txbuf      := none
  bound      := c.bound

/-- The context a successful CREATE leaves (40_strip_manager.md R104). -/
def Ctx.create (c : Ctx) (t : DeviceType) (len : BitVec 16) (maxc : Byte) : Ctx where
  lifecycle  := .created
  deviceType := t
  length     := len
  maxc       := maxc
  timing     := timingOf t
  pixels     := some (Memory.fresh len.toNat)
  wire       := some (Memory.fresh (len.toNat * bytesPerLed t))
  txbuf      := none
  bound      := c.bound

/-- `ctx.TXBUF <- Absent` or `Valid(seq)`. -/
def State.setTxbuf (s : State) (tx : Option (List PulseDescriptor)) : State := s.setCtx { s.ctx with txbuf := tx }

/-- `ctx.BOUND <- ...`. -/
def State.setBound (s : State) (b : Option (Byte × Byte)) : State := s.setCtx { s.ctx with bound := b }

/-- The contents of `PIX`. -/
def State.setPixels (s : State) (m : Memory Pixel) : State := s.setCtx { s.ctx with pixels := some m }

/-- The contents of `WIRE`. -/
def State.setWire (s : State) (m : Memory Byte) : State := s.setCtx { s.ctx with wire := some m }

/-- `emit E` (00_scope.md R15). -/
def State.emit (s : State) (e : Event) : State := { s with trace := s.trace ++ [e] }

/-- How many draws have been asked: the number a fresh free value is applied to (log 6). -/
def Oracles.count (o : Oracles) : Nat := o.asked.length

/-- The state with other oracles: a draw changes nothing else. -/
def State.withOracles (s : State) (o : Oracles) : State := { s with oracles := o }

/-- `draw Alloc(kind, n)` (00_scope.md R14): the allocator's next fixed answer, else a free one. -/
def drawAlloc (kind : AllocKind) (n : Nat) (s : State) : AllocAnswer × State :=
  let asked := s.oracles.asked ++ [.alloc kind n]
  match s.oracles.alloc with
  | a :: rest => (a, s.withOracles { s.oracles with alloc := rest, asked := asked })
  | [] => (Config.allocAnswer s.oracles.count kind n, s.withOracles { s.oracles with asked := asked })

/-- `draw Periph(call)` (00_scope.md R14): the peripheral's next fixed answer, else a free one. It always answers
(42_transmitter.md R180; log 16). -/
def drawPeriph (call : PeriphCall) (s : State) : PeriphAnswer × State :=
  let asked := s.oracles.asked ++ [.periph call]
  match s.oracles.periph with
  | a :: rest => (a, s.withOracles { s.oracles with periph := rest, asked := asked })
  | [] => (Config.periphAnswer s.oracles.count call, s.withOracles { s.oracles with asked := asked })

/-- `draw Prefix(seq)` (00_scope.md R14): any leading part, from none of it to all of it. -/
def drawLeading (seq : List PulseDescriptor) (s : State) : List PulseDescriptor × State :=
  let asked := s.oracles.asked ++ [.leading seq]
  match s.oracles.leading with
  | n :: rest => (seq.take n, s.withOracles { s.oracles with leading := rest, asked := asked })
  | [] => (seq.take (Config.leadingLength s.oracles.count seq), s.withOracles { s.oracles with asked := asked })

/-- The name of a call (42_transmitter.md R171): what a `PeripheralError` reports (log 20). -/
def PeriphCall.op : PeriphCall → PeriphOp
  | .stopChannel _ => .stopChannel
  | .disableInterrupts _ => .disableInterrupts
  | .setClockDivider _ _ => .setClockDivider
  | .configurePin _ => .configurePin
  | .installDriver _ => .installDriver
  | .write _ _ _ => .write

/-- Make the calls in order; the first one that fails ends the list, and no later call is made (42_transmitter.md R172). -/
def callAll : List PeriphCall → State → Option (PeriphOp × BitVec 32) × State
  | [], s => (none, s)
  | call :: rest, s =>
    match drawPeriph call s with
    | (.ok, s') => callAll rest s'
    | (.err code, s') => (some (call.op, code), s')

/-- BIND's five calls in the fixed order of 42_transmitter.md R172 and R173. -/
def bindCalls (divider : Nat) (pin chan : Byte) : List PeriphCall :=
  [ .stopChannel chan, .disableInterrupts chan, .setClockDivider chan divider, .configurePin pin, .installDriver chan ]

/-- The refusal mark of a word the decoder refuses (60_exceptions.md R207). -/
def Refusal.ofDecode : DecodeError → Refusal
  | .reservedOpcode => .reservedOpcode
  | .nonzeroUnused => .nonzeroUnused

/-- Take the next command the host has issued. A recorded fault or refusal has ended the run, and nothing clears it
(10_state.md R42, 60_exceptions.md R220). With no word pending the block is idle and keeps all state
(60_exceptions.md R219, 70_reset_and_hazards.md R231; log 1): the answer is then no instruction and the same state. -/
def takeCommand (s : State) : Host.Outcome (Option Instr × State) Fault Refusal :=
  match s.faultMark with
  | some f => .fault f
  | none =>
    match s.refusalMark with
    | some r => .refused r
    | none =>
      match s.commands with
      | [] => .next (none, s)
      | w :: rest =>
        match decode w with
        | .ok i => .next (some i, { s with commands := rest })
        | .error e => .refused (Refusal.ofDecode e)

/-- The host issues the word `v`: it is the next command, and the run has not ended (log 11). -/
def issueNow (s : State) (v : CmdWord) : State :=
  { s with faultMark := none, refusalMark := none, commands := v :: s.commands }

/-- The word numbered as the opcode table numbers it (30_encoding.md R71, R80). -/
def tableWord (nbits w : Nat) : CmdWord := BitVec.ofNat 64 (w % 2 ^ nbits)

end Sys2Proof.Machine
end

