-- ==== Sys2Proof/Machine/Operands.lean ====
section
/-! DEFINITION. Operand forms: the checks that turn a command's operands and the strip's state into what the command works on. -/

namespace Sys2Proof.Machine

/-- The device type of a `DTYPE` operand, none for code 7 (30_encoding.md R76; 41_protocol_encoder.md R133). -/
def device? : DType → Option DeviceType
  | .known t => some t
  | .unrecognized => none

/-- The device type CREATE can make a strip of: none for the type `none` and for code 7 (40_strip_manager.md R102). -/
def realDevice? : DType → Option DeviceType
  | .known t => if t = .none then none else some t
  | .unrecognized => none

/-- The pixel array of a Created strip; none when it is Uninitialized or Destroyed (10_state.md R32; log 12). -/
def createdPixels? (c : Ctx) : Option (Memory Pixel) := if c.lifecycle = .created then c.pixels else none

/-- The wire buffer of a Created strip; none when it is Uninitialized or Destroyed (10_state.md R33; log 12). -/
def createdWire? (c : Ctx) : Option (Memory Byte) := if c.lifecycle = .created then c.wire else none

end Sys2Proof.Machine
end

