-- ==== Sys2Proof/Machine/ProtocolEncoder.lean ====
section
/-! DEFINITION. The meanings of the core block's commands (41_protocol_encoder.md): SET_TIMINGS, DERIVE_PULSES, ENCODE. -/

namespace Sys2Proof.Machine

/-- SET_TIMINGS (41_protocol_encoder.md R133): a query of the table, in every lifecycle state. -/
def execSetTimings (dtype : DType) (s : State) : Answer :=
  match device? dtype with
  | none => finish (.invalidArgument .deviceType) s
  | some t => finish (.okTiming (timingOf t)) s

/-- DERIVE_PULSES (41_protocol_encoder.md R136): from the current timing fields, in every lifecycle state, unchecked. -/
def execDerivePulses (h : Handle) (s : State) : Answer :=
  match h with
  | .null => finish (.invalidArgument .handle) s
  | .strip => finish (.okPulses (canonical s.params.tickNs s.ctx.timing)) s

/-- ENCODE (41_protocol_encoder.md R138 checks in their order, R139 allocation, R140 to R142). -/
def execEncode (h : Handle) (s : State) : Answer :=
  match h with
  | .null => finish (.invalidArgument .handle) s
  | .strip =>
    match createdWire? s.ctx with
    | none => finish (.invalidArgument .state) (s.setTxbuf none)
    | some wire =>
      if wire.size = 0 then finish (.invalidSize .bufferLength) (s.setTxbuf none)
      else if representable s.params.tickNs s.ctx.timing = false then .fault .timing
      else
        match wireBytes wire with
        | none => .fault .unwritten
        | some bytes =>
          match drawAlloc .tx (8 * wire.size) s with
          | (.fail, s₁) => finish (.outOfMemory .tx) (s₁.setTxbuf none)
          | (.ok, s₁) => finish .ok (s₁.setTxbuf (some (frameOf (canonical s.params.tickNs s.ctx.timing) bytes)))

end Sys2Proof.Machine
end

