-- ==== Sys2Proof/Machine/StripManager.lean ====
section
/-! DEFINITION. The meanings of the strip manager's boundary commands (40_strip_manager.md): INITIALIZE, CREATE, DESTROY, SET_PIXEL, FILL_BUFFER. -/

namespace Sys2Proof.Machine

/-- INITIALIZE (40_strip_manager.md R101). -/
def execInitStrip (h : Handle) (s : State) : Answer :=
  match h with
  | .null => finish (.invalidArgument .handle) s
  | .strip =>
    if s.ctx.lifecycle = .created then .fault .lifecycle
    else finish .ok (s.setCtx s.ctx.null)

/-- CREATE (40_strip_manager.md R102 checks, R103 allocation, R104 success). -/
def execCreate (h : Handle) (dtype : DType) (len : BitVec 16) (maxc : Byte) (s : State) : Answer :=
  match h with
  | .null => finish (.invalidArgument .handle) s
  | .strip =>
    if s.ctx.lifecycle ≠ .uninitialized then .fault .lifecycle
    else
      match realDevice? dtype with
      | none => finish (.invalidArgument .deviceType) s
      | some t =>
        if len = 0 then finish (.invalidSize .length) s
        else
          match drawAlloc .pix len.toNat s with
          | (.fail, s₁) => finish (.outOfMemory .pix) s₁
          | (.ok, s₁) =>
            match drawAlloc .wire (len.toNat * bytesPerLed t) s₁ with
            | (.fail, s₂) => finish (.outOfMemory .wire) s₂
            | (.ok, s₂) => finish .ok (s₂.setCtx (s₂.ctx.create t len maxc))

/-- DESTROY (40_strip_manager.md R106). -/
def execDestroy (h : Handle) (s : State) : Answer :=
  match h with
  | .null => finish (.invalidArgument .handle) s
  | .strip =>
    match s.ctx.lifecycle with
    | .created => finish .ok (s.setCtx { s.ctx.null with lifecycle := .destroyed })
    | .destroyed => finish .ok s
    | .uninitialized => finish .ok s

/-- SET_PIXEL (40_strip_manager.md R112): no clamping (R111). -/
def execSetPixel (h : Handle) (idx : BitVec 16) (r g b : Byte) (s : State) : Answer :=
  match h with
  | .null => .fault .pixel
  | .strip =>
    match createdPixels? s.ctx with
    | none => .fault .pixel
    | some pix =>
      if s.ctx.length.toNat ≤ idx.toNat then .fault .pixel
      else finish .ok (s.setPixels (writePixel pix idx.toNat ⟨r, g, b⟩))

/-- FILL_BUFFER (40_strip_manager.md R108). -/
def execFillBuffer (h : Handle) (s : State) : Answer :=
  match h with
  | .null => finish (.invalidArgument .handle) s
  | .strip =>
    match createdPixels? s.ctx, createdWire? s.ctx with
    | some pix, some wire => finish .ok (s.setWire (serializePixels pix wire s.ctx.length.toNat))
    | _, _ => finish (.invalidArgument .state) s

end Sys2Proof.Machine
end

