-- ==== Sys2Proof/Machine/Transmitter.lean ====
section
/-! DEFINITION. The meanings of the transmitter's boundary commands (42_transmitter.md): BIND, TRANSMIT. -/

namespace Sys2Proof.Machine

/-- BIND (42_transmitter.md R172): reads no LIFECYCLE; BOUND is absent from its start until all five calls have succeeded. -/
def execBind (h : Handle) (pin chan : Byte) (s : State) : Answer :=
  match h with
  | .null => finish (.invalidArgument .handle) s
  | .strip =>
    match callAll (bindCalls s.params.divider pin chan) (s.setBound none) with
    | (some (op, code), s₁) => finish (.peripheralError op code) s₁
    | (none, s₁) => finish .ok (s₁.setBound (some (pin, chan)))

/-- TRANSMIT (42_transmitter.md R175 checks, R176 the blocking write, R177 success, R178 failure). -/
def execTransmit (h : Handle) (s : State) : Answer :=
  match h with
  | .null => finish (.invalidArgument .handle) s
  | .strip =>
    if s.ctx.lifecycle ≠ .created then finish (.invalidArgument .state) s
    else
      match s.ctx.bound with
      | none => .fault .unbound
      | some (_, chan) =>
        match s.ctx.txbuf with
        | none => .fault .notEncoded
        | some seq =>
          match drawPeriph (.write chan seq true) s with
          | (.ok, s₁) => finish .ok ((s₁.emit (.emitted chan seq)).setTxbuf none)
          | (.err code, s₁) =>
            match drawLeading seq s₁ with
            | (part, s₂) =>
              finish (.peripheralError .write code) ((s₂.emit (.emittedPartial chan part code)).setTxbuf none)

end Sys2Proof.Machine
end

