-- ==== Sys2Proof/Machine/Dispatch.lean ====
section
/-! DEFINITION. One arm per constructor of Instr: each a direct call of the command's own meaning. -/

namespace Sys2Proof.Machine

def exec (i : Instr) (s : State) : Host.Outcome State Fault Refusal :=
  match i with
  | .initStrip h => Sys2Proof.Machine.execInitStrip h s
  | .create h dtype len maxc => Sys2Proof.Machine.execCreate h dtype len maxc s
  | .destroy h => Sys2Proof.Machine.execDestroy h s
  | .setPixel h idx r g b => Sys2Proof.Machine.execSetPixel h idx r g b s
  | .fillBuffer h => Sys2Proof.Machine.execFillBuffer h s
  | .setTimings dtype => Sys2Proof.Machine.execSetTimings dtype s
  | .derivePulses h => Sys2Proof.Machine.execDerivePulses h s
  | .encode h => Sys2Proof.Machine.execEncode h s
  | .bind h pin chan => Sys2Proof.Machine.execBind h pin chan s
  | .transmit h => Sys2Proof.Machine.execTransmit h s

end Sys2Proof.Machine
end

