-- ==== Sys2Proof/Machine/Step.lean ====
section
/-! DEFINITION. One step: take the next command word, decode it, run it. A step with no word pending is idle. -/

namespace Sys2Proof.Machine

/-- One step of the machine (20_memory.md R60, R64): the next command of the host, run to its end as one atomic step. -/
def step (s : State) : Host.Outcome State Fault Refusal :=
  match takeCommand s with
  | .fault f => .fault f
  | .refused r => .refused r
  | .next (none, t) => .next t
  | .next (some i, t) => exec i t

/-- The state in which the host has just issued the table's word: the very next step decodes and runs it (log 11). -/
def State.withFetchWord (s : State) (nbits w : Nat) : State := issueNow s (tableWord nbits w)

end Sys2Proof.Machine
end

