-- ==== Sys2Proof/Machine/Assembler.lean ====
section
/-! DEFINITION. The assembler syntax as text (30_encoding.md R86): one command on a line, the mnemonic, then its operands separated by commas. What R86 leaves to the writer (white space around a name or operand, the case of a hexadecimal digit) is log 19. -/

namespace Sys2Proof.Machine

/-- A space or a tab. -/
def isBlank (c : Char) : Bool := c == ' ' || c == '\t'

/-- The characters after the leading blanks. -/
def dropBlanks : List Char → List Char
  | [] => []
  | c :: rest => if isBlank c then dropBlanks rest else c :: rest

/-- The characters without leading and trailing blanks. -/
def trimBlanks (cs : List Char) : List Char := (dropBlanks (dropBlanks cs).reverse).reverse

/-- The characters up to the first blank, and those after it. -/
def firstWord : List Char → List Char × List Char
  | [] => ([], [])
  | c :: rest => if isBlank c then ([], rest) else (c :: (firstWord rest).1, (firstWord rest).2)

/-- The pieces between commas; there is always at least one. -/
def splitCommas : List Char → List (List Char)
  | [] => [[]]
  | c :: rest =>
    if c == ',' then [] :: splitCommas rest
    else
      match splitCommas rest with
      | [] => [[c]]
      | piece :: more => (c :: piece) :: more

/-- A decimal digit's value. -/
def decimalDigit (c : Char) : Option Nat := if '0' ≤ c ∧ c ≤ '9' then some (c.toNat - '0'.toNat) else none

/-- A hexadecimal digit's value, in either case (log 19). -/
def hexDigit (c : Char) : Option Nat :=
  if 'a' ≤ c ∧ c ≤ 'f' then some (c.toNat - 'a'.toNat + 10)
  else if 'A' ≤ c ∧ c ≤ 'F' then some (c.toNat - 'A'.toNat + 10)
  else decimalDigit c

/-- The number that `acc` followed by the digits denotes. -/
def digitsValue (base : Nat) (digit : Char → Option Nat) : Nat → List Char → Option Nat
  | acc, [] => some acc
  | acc, c :: rest =>
    match digit c with
    | some d => digitsValue base digit (acc * base + d) rest
    | none => none

/-- A number: decimal, or hexadecimal with a `0x` in front (30_encoding.md R86). -/
def parseNumber : List Char → Option Nat
  | [] => none
  | ['0', 'x'] => none
  | '0' :: 'x' :: rest => digitsValue 16 hexDigit 0 rest
  | cs => digitsValue 10 decimalDigit 0 cs

/-- A handle operand: `h` or `null` (30_encoding.md R86). -/
def parseHandle (cs : List Char) : Option Handle :=
  if cs = "h".toList then some .strip else if cs = "null".toList then some .null else none

/-- The assembler name of a device type (30_encoding.md R76). -/
def deviceName : DeviceType → List Char
  | .none => "NONE".toList
  | .ws2812 => "WS2812".toList
  | .ws2812b => "WS2812B".toList
  | .ws2812d => "WS2812D".toList
  | .ws2813 => "WS2813".toList
  | .ws2815 => "WS2815".toList
  | .ws281x => "WS281X".toList

/-- The seven device types, in the order of their codes. -/
def deviceTypes : List DeviceType := [.none, .ws2812, .ws2812b, .ws2812d, .ws2813, .ws2815, .ws281x]

/-- A device-type operand: a name of R76's table, or `#n` (30_encoding.md R86). -/
def parseDType (cs : List Char) : Option AsmDType :=
  match cs with
  | '#' :: rest => (parseNumber rest).map AsmDType.code
  | _ => (deviceTypes.find? fun t => deviceName t = cs).map AsmDType.named

/-- A mnemonic with its operands already cut apart (30_encoding.md R86, R88). -/
def parseCommand (mnemonic : List Char) (operands : List (List Char)) : Option AsmLine :=
  match operands with
  | [a] =>
    if mnemonic = "INITIALIZE".toList then (parseHandle a).map AsmLine.initStrip
    else if mnemonic = "DESTROY".toList then (parseHandle a).map AsmLine.destroy
    else if mnemonic = "FILL_BUFFER".toList then (parseHandle a).map AsmLine.fillBuffer
    else if mnemonic = "SET_TIMINGS".toList then (parseDType a).map AsmLine.setTimings
    else if mnemonic = "DERIVE_PULSES".toList then (parseHandle a).map AsmLine.derivePulses
    else if mnemonic = "ENCODE".toList then (parseHandle a).map AsmLine.encode
    else if mnemonic = "TRANSMIT".toList then (parseHandle a).map AsmLine.transmit
    else if mnemonic = "SHOW".toList then (parseHandle a).map AsmLine.showFrame
    else none
  | [a, pin, chan] =>
    if mnemonic = "BIND".toList then
      match parseHandle a, parseNumber pin, parseNumber chan with
      | some h, some p, some c => some (.bind h p c)
      | _, _, _ => none
    else none
  | [a, dtype, len, maxc] =>
    if mnemonic = "CREATE".toList then
      match parseHandle a, parseDType dtype, parseNumber len, parseNumber maxc with
      | some h, some d, some l, some m => some (.create h d l m)
      | _, _, _, _ => none
    else none
  | [a, idx, r, g, b] =>
    if mnemonic = "SET_PIXEL".toList then
      match parseHandle a, parseNumber idx, parseNumber r, parseNumber g, parseNumber b with
      | some h, some i, some vr, some vg, some vb => some (.setPixel h i vr vg vb)
      | _, _, _, _, _ => none
    else none
  | _ => none

/-- One line of text (30_encoding.md R86). -/
def parseLine (text : String) : Option AsmLine :=
  let (mnemonic, rest) := firstWord (trimBlanks text.toList)
  parseCommand mnemonic ((splitCommas rest).map trimBlanks)

/-- The words of a line of text: none where it is no line of R86, or an operand does not fit its field (R87). -/
def assembleText (text : String) : Option (List CmdWord) :=
  match parseLine text with
  | some l => assemble l
  | none => none

end Sys2Proof.Machine
end

