-- ==== Sys2Proof/Machine/Flags.lean ====
section
/-! DEFINITION. The block has no flags and no condition codes (10_state.md R23): what a command reports is its result. This file gives the result's numeric code (30_encoding.md R83) and the codes of the enumerated registers. -/

namespace Sys2Proof.Machine

/-- The code of a result (30_encoding.md R83). -/
def Result.code : Result → Nat
  | .ok => 0
  | .okTiming _ => 0
  | .okPulses _ => 0
  | .invalidArgument _ => 1
  | .invalidSize _ => 2
  | .outOfMemory _ => 3
  | .peripheralError _ _ => 4

/-- The result is `OK`, with whatever payload. -/
def Result.isOk (r : Result) : Bool := r.code == 0

/-- `LIFECYCLE`'s two bits (10_state.md R25). -/
def Lifecycle.code : Lifecycle → BitVec 2
  | .uninitialized => 0
  | .created => 1
  | .destroyed => 2

end Sys2Proof.Machine
end

