-- ==== Sys2Proof/Machine/Run.lean ====
section
/-! DEFINITION. What the host sees of a run: the run state after a step, marks included (10_state.md R42), and a host that issues commands until one does not return OK (30_encoding.md R88). -/

namespace Sys2Proof.Machine

/-- The run state after one step (10_state.md R42, 60_exceptions.md R220): a fault or a refusal sets its mark and changes
nothing else; the faulting command's words stay in the host's list, and no later one runs. -/
def advance (s : State) : State :=
  match step s with
  | .next t => t
  | .fault f => { s with faultMark := some f }
  | .refused r => { s with refusalMark := some r }

/-- The run state after `n` steps. -/
def advanceBy : Nat → State → State
  | 0, s => s
  | n + 1, s => advanceBy n (advance s)

/-- No fault and no refusal is recorded: the premise of every claim about a run (60_exceptions.md R220). -/
def State.unmarked (s : State) : Bool := s.faultMark.isNone && s.refusalMark.isNone

/-- The result of the last command, if one has been given. -/
def State.lastResult? (s : State) : Option Result := s.results.getLast?

/-- A host that issues the commands in order and stops at the first result other than `OK` (30_encoding.md R88). -/
def issueUntilError : List Instr → State → Answer
  | [], s => .next s
  | i :: rest, s =>
    match exec i s with
    | .next t =>
      match t.lastResult? with
      | some r => if r.isOk then issueUntilError rest t else .next t
      | none => .next t
    | .fault f => .fault f
    | .refused r => .refused r

/-- The host's `SHOW` (30_encoding.md R88). -/
def showFrame (h : Handle) (s : State) : Answer := issueUntilError (AsmLine.showFrame h).expand s

end Sys2Proof.Machine
end

