-- ==== Sys2Proof/Machine/Waveform.lean ====
section
/-! DEFINITION. What a descriptor sequence means on the wire (42_transmitter.md R183 to R186): a function of the output trace, not state. -/

namespace Sys2Proof.Machine

/-- The waveform of one descriptor: the line at `level0` for `d0 x TICK_NS` ns, then at `level1` for `d1 x TICK_NS` ns
(42_transmitter.md R183). -/
def pulseWave (tickNs : Nat) (pd : PulseDescriptor) : List (Level × Nat) :=
  [(pd.level0, pd.duration0 * tickNs), (pd.level1, pd.duration1 * tickNs)]

/-- The waveform of a sequence: its descriptors' back to back, in index order, with no gap (42_transmitter.md R184; log 18). -/
def wave (tickNs : Nat) (seq : List PulseDescriptor) : List (Level × Nat) := seq.flatMap (pulseWave tickNs)

/-- The length of a waveform, in nanoseconds. -/
def waveLength : List (Level × Nat) → Nat
  | [] => 0
  | (_, d) :: rest => d + waveLength rest

/-- The pin's idle level, low: the line's level before and after a sequence (42_transmitter.md R184). -/
def idleLevel : Level := .low

/-- The line's level `t` nanoseconds after a waveform starts; after its end the line idles (42_transmitter.md R184). -/
def levelAt : List (Level × Nat) → Nat → Level
  | [], _ => idleLevel
  | (l, d) :: rest, t => if t < d then l else levelAt rest (t - d)

/-- The line's level at every moment, `t` nanoseconds from the start of a waveform: at a negative `t`, before its first
descriptor, the line idles (42_transmitter.md R184). -/
def lineLevel (w : List (Level × Nat)) (t : Int) : Level := if t < 0 then idleLevel else levelAt w t.toNat

/-- The ticks of a sequence: the sum of both durations of every descriptor. -/
def frameTicks : List PulseDescriptor → Nat
  | [] => 0
  | pd :: rest => pd.duration0 + pd.duration1 + frameTicks rest

/-- The wire time of a frame in nanoseconds (42_transmitter.md R185). -/
def wireTime (tickNs : Nat) (seq : List PulseDescriptor) : Nat := tickNs * frameTicks seq

/-- What reached the wire in an event of the trace (42_transmitter.md R181, R182). -/
def Event.sent : Event → List PulseDescriptor
  | .emitted _ seq => seq
  | .emittedPartial _ part _ => part

/-- The waveform of an event (42_transmitter.md R181, R184). R181 gives a whole emission this waveform; giving it to the part
a failed write sent (R182) is the model's choice (DESIGN CHOICE, log 21). -/
def Event.wave (tickNs : Nat) (e : Event) : List (Level × Nat) := Sys2Proof.Machine.wave tickNs e.sent

/-- The line's level at every moment around an event, `t` nanoseconds from its first descriptor (42_transmitter.md R184).
After the part a failed write sent the spec leaves the level open; low is the model's choice (DESIGN CHOICE, log 21). -/
def Event.lineLevel (tickNs : Nat) (e : Event) (t : Int) : Level := Sys2Proof.Machine.lineLevel (e.wave tickNs) t

end Sys2Proof.Machine
end

