-- ==== Sys2Proof/Safety.lean ====
section
/-! DEFINITION. What a sound state, a sound signal and a reachable state are, in the terms the statements use. -/

namespace Sys2Proof.Machine

/-- The context is in the null state (10_state.md R40): `NullState` would change nothing. -/
def Ctx.isNull (c : Ctx) : Prop := c.null = c

/-- The invariants of the strip context (10_state.md R31 to R34, R44), and that both memories are in canonical form. -/
structure Ctx.Inv (c : Ctx) : Prop where
  /-- R44(a), R32, R33: Created exactly when PIXELS and WIRE are both present. -/
  createdIff : c.lifecycle = .created ↔ c.pixels.isSome ∧ c.wire.isSome
  /-- R34: the memories are both present or both absent. -/
  together   : c.pixels.isSome = c.wire.isSome
  /-- R44(b), R26: a Created strip has a real device type. -/
  realType   : c.lifecycle = .created → c.deviceType ≠ .none
  /-- R44(b), R27: a Created strip has at least one LED. -/
  someLed    : c.lifecycle = .created → c.length ≠ 0
  /-- R32: PIX has LENGTH pixels. -/
  pixSize    : ∀ m, c.pixels = some m → m.size = c.length.toNat
  /-- R33, R34, R44(b): WIRE has 3 x LENGTH cells. -/
  wireSize   : ∀ m, c.wire = some m → m.size = 3 * c.length.toNat
  /-- R44(c): Uninitialized or Destroyed exactly in the null state. -/
  nullIff    : c.lifecycle ≠ .created ↔ c.isNull
  /-- R44(d): a Valid transmission buffer belongs to a Created strip and has 24 x LENGTH descriptors. -/
  txSize     : ∀ seq, c.txbuf = some seq → c.lifecycle = .created ∧ seq.length = 24 * c.length.toNat
  /-- R31: the timing registers hold the device type's row. -/
  timingRow  : c.timing = timingOf c.deviceType
  /-- The canonical form of PIX. -/
  pixForm    : ∀ m, c.pixels = some m → pixWf m
  /-- The canonical form of WIRE. -/
  wireForm   : ∀ m, c.wire = some m → wireWf m

/-- The invariant of a state: its context's, and a legal tick (00_scope.md R9). -/
structure State.Inv (s : State) : Prop where
  ctx  : s.ctx.Inv
  tick : 1 ≤ s.params.tickNs

/-- A descriptor the line can carry: high then low, each for 1 to DUR_MAX ticks (30_encoding.md R85, 41_protocol_encoder.md
R137: "must guarantee the transmitted signal is never malformed"). -/
def pulseSound (pd : PulseDescriptor) : Bool :=
  decide (pd.level0 = .high) && decide (pd.level1 = .low) && durationFits pd.duration0 && durationFits pd.duration1

/-- The last descriptor's low part is the reset window of the timing row (41_protocol_encoder.md R145). -/
def endsInReset (tickNs : Nat) (t : Timing) (seq : List PulseDescriptor) : Bool :=
  match seq.getLast? with
  | some pd => decide (pd.duration1 = ticks tickNs t.resetNs)
  | none => false

/-- Nothing malformed is encoded or has been sent: every descriptor of TXBUF and of the trace is sound, and every frame,
encoded or emitted whole, ends in the reset window of a real device type. -/
structure State.SignalSound (s : State) : Prop where
  encoded : ∀ seq, s.ctx.txbuf = some seq → seq.all pulseSound ∧ endsInReset s.params.tickNs s.ctx.timing seq
  sent    : ∀ e ∈ s.trace, e.sent.all pulseSound
  latched : ∀ chan seq, Event.emitted chan seq ∈ s.trace →
    ∃ t, t ≠ DeviceType.none ∧ endsInReset s.params.tickNs (timingOf t) seq

/-- The tick resolutions, least and greatest, at which a device type's row is representable (41_protocol_encoder.md R149);
none for the type `none`. -/
def tickRange : DeviceType → Nat × Nat
  | .none => (1, 0)
  | .ws2812 => (2, 350)
  | .ws2812b => (9, 300)
  | .ws2812d => (2, 400)
  | .ws2813 => (9, 300)
  | .ws2815 => (9, 300)
  | .ws281x => (2, 400)

/-- Every cell of the wire buffer, where there is one, has been written (70_reset_and_hazards.md R239). -/
def Ctx.allWritten (c : Ctx) : Prop := ∀ m, c.wire = some m → ∀ k, k < m.size → (readByte m k).isSome

/-- A run's start: reset, with the host's commands, the oracles' fixed answers and the open parameters as they may be. -/
def State.start (commands : List CmdWord) (oracles : Oracles) (params : Params) : State :=
  { State.reset with commands := commands, oracles := oracles, params := params }

/-- A state of some run from reset, whatever the host issues and the oracles answer, at a legal tick. -/
def State.Reachable (s : State) : Prop :=
  ∃ commands oracles params n, 1 ≤ params.tickNs ∧ s = advanceBy n (State.start commands oracles params)

end Sys2Proof.Machine
end

