-- ==== Sys2Proof/Certificates/Slice0/Obligations.lean ====
section
/-! DEFINITION. The statements for the provers. Each docstring names the rules of spec/ a statement formalises; OBLIGATIONS.json lists them. In a statement about an instruction `exec` is given the state after the word has been taken from the host's list. -/

open Sys2Proof Sys2Proof.Machine

/-! ## Encoding -/

/-- R70 to R78: no bit of an instruction's encoding is dropped, with every operand at every value. -/
def Obligations.DecodeOfEncode : Prop := ∀ i : Instr, decode (encode i) = .ok i

/-- R70, R73: a word that decodes is the only word of its instruction. -/
def Obligations.EncodeOfDecode : Prop := ∀ (w : CmdWord) (i : Instr), decode w = .ok i → encode i = w

/-- R73, R79, R207: the decoder's verdict on every word, told by the opcode and by the opcode table's masks. -/
def Obligations.DecoderVerdicts : Prop :=
  ∀ w : CmdWord,
    (decode w = .error .reservedOpcode ↔ 0xA ≤ (w.extractLsb' 0 4).toNat) ∧
    (decode w = .error .nonzeroUnused ↔
      (w.extractLsb' 0 4).toNat ≤ 0x9 ∧ ∀ row ∈ opcodeRows, row.admits w = false) ∧
    ((∃ i, decode w = .ok i) ↔ ∃ row ∈ opcodeRows, row.admits w = true) ∧
    (∀ i, decode w = .ok i → i.row.admits w = true)

/-- R72, R73: no word lies in two rows of the opcode table. -/
def Obligations.OpcodeRowsDisjoint : Prop :=
  ∀ (w : CmdWord), ∀ a ∈ opcodeRows, ∀ b ∈ opcodeRows, a.admits w = true → b.admits w = true → a = b

/-- 30_encoding.md section 6: sample words of every family and of both refusals. -/
def Obligations.SampleWordsDecode : Prop :=
  decode 0x0000000000000010 = .ok (.initStrip .strip) ∧
  decode 0x00000000000A2051 = .ok (.create .strip (.known .ws2812b) 10 32) ∧
  decode 0x00000000000500F1 = .ok (.create .strip .unrecognized 5 0) ∧
  decode 0x0000000000000002 = .ok (.destroy .null) ∧
  decode 0x00A500FF00010013 = .ok (.setPixel .strip 1 0xFF 0x00 0xA5) ∧
  decode 0x0000000000000014 = .ok (.fillBuffer .strip) ∧
  decode 0x00000000000000C5 = .ok (.setTimings (.known .ws281x)) ∧
  decode 0x0000000000000016 = .ok (.derivePulses .strip) ∧
  decode 0x0000000000000007 = .ok (.encode .null) ∧
  decode 0x0000010500000018 = .ok (.bind .strip 5 1) ∧
  decode 0x0000000000000019 = .ok (.transmit .strip) ∧
  decode 0x000000000000001A = .error .reservedOpcode ∧
  decode 0x0000000000000015 = .error .nonzeroUnused

/-- R86, R87, R88: a line whose operands fit their fields assembles to words that decode to exactly those operands; one
that does not has no encoding; `SHOW` is its three commands in order. -/
def Obligations.AssembledOperandsExact : Prop :=
  (∀ h t len maxc, (len < 65536 ∧ maxc < 256 →
      ∃ w l m, assemble (.create h (.named t) len maxc) = some [w] ∧ decode w = .ok (.create h (.known t) l m) ∧
        l.toNat = len ∧ m.toNat = maxc) ∧
    (65536 ≤ len ∨ 256 ≤ maxc → assemble (.create h (.named t) len maxc) = none)) ∧
  (∀ h idx r g b, (idx < 65536 ∧ r < 256 ∧ g < 256 ∧ b < 256 →
      ∃ w i vr vg vb, assemble (.setPixel h idx r g b) = some [w] ∧ decode w = .ok (.setPixel h i vr vg vb) ∧
        i.toNat = idx ∧ vr.toNat = r ∧ vg.toNat = g ∧ vb.toNat = b) ∧
    (65536 ≤ idx ∨ 256 ≤ r ∨ 256 ≤ g ∨ 256 ≤ b → assemble (.setPixel h idx r g b) = none)) ∧
  (∀ h pin chan, (pin < 256 ∧ chan < 256 →
      ∃ w p c, assemble (.bind h pin chan) = some [w] ∧ decode w = .ok (.bind h p c) ∧
        p.toNat = pin ∧ c.toNat = chan) ∧
    (256 ≤ pin ∨ 256 ≤ chan → assemble (.bind h pin chan) = none)) ∧
  (∀ h, ∃ w₁ w₂ w₃, assemble (.showFrame h) = some [w₁, w₂, w₃] ∧ decode w₁ = .ok (.fillBuffer h) ∧
    decode w₂ = .ok (.encode h) ∧ decode w₃ = .ok (.transmit h))

/-! ## One step -/

/-- R60, R64: where the run has not ended, a step takes the host's next word and runs exactly the decoded instruction. -/
def Obligations.StepRunsDecodedCommand : Prop :=
  ∀ (s : State) (w : CmdWord) (rest : List CmdWord) (i : Instr),
    s.faultMark = none → s.refusalMark = none → s.commands = w :: rest → decode w = .ok i →
    step s = exec i { s with commands := rest }

/-- R79, R207, R42: a word the decoder refuses ends the run with its mark. That the run state is otherwise the same, the
refused word still first in the pending list, is the model's choice (log 10, with log 1). -/
def Obligations.UndecodableWordRefused : Prop :=
  ∀ (s : State) (w : CmdWord) (rest : List CmdWord),
    s.faultMark = none → s.refusalMark = none → s.commands = w :: rest →
    (decode w = .error .reservedOpcode →
      step s = .refused .reservedOpcode ∧ advance s = { s with refusalMark := some .reservedOpcode }) ∧
    (decode w = .error .nonzeroUnused →
      step s = .refused .nonzeroUnused ∧ advance s = { s with refusalMark := some .nonzeroUnused })

/-- R42, R206, R220: a fault raised by the next command sets its mark. That the run state is otherwise the same, the
faulting word still first in the pending list, is the model's choice (log 10, with log 1). -/
def Obligations.FaultSetsItsMark : Prop :=
  ∀ (s : State) (w : CmdWord) (rest : List CmdWord) (i : Instr) (f : Fault),
    s.faultMark = none → s.refusalMark = none → s.commands = w :: rest → decode w = .ok i →
    exec i { s with commands := rest } = .fault f → step s = .fault f ∧ advance s = { s with faultMark := some f }

/-- R42, R220: a recorded fault or refusal has ended the run; no later command runs and nothing clears the mark. -/
def Obligations.EndedRunIsFinal : Prop :=
  ∀ (s : State) (n : Nat), s.unmarked = false → advanceBy n s = s

/-- R219, R231: with no command pending the block is idle and keeps all state. The pending list is the model's (log 1). -/
def Obligations.IdleKeepsState : Prop :=
  ∀ s : State, s.faultMark = none → s.refusalMark = none → s.commands = [] → step s = .next s ∧ advance s = s

/-- Log 11, the model's choice: a word placed for the next fetch is the very next command run. -/
def Obligations.PlacedWordRunsNext : Prop :=
  ∀ (s : State) (nbits w : Nat) (i : Instr), decodeTableWord nbits w = some i →
    step (s.withFetchWord nbits w) = exec i { s with faultMark := none, refusalMark := none }

/-! ## Reset and invariants -/

/-- R41, R230: the state after power-on reset. -/
def Obligations.ResetState : Prop :=
  State.reset.ctx =
    { lifecycle := .uninitialized, deviceType := .none, length := 0, maxc := 0,
      timing := { t0h := 0, t0l := 0, t1h := 0, t1l := 0, resetNs := 0 },
      pixels := none, wire := none, txbuf := none, bound := none } ∧
  State.reset.ctx.isNull ∧ State.reset.faultMark = none ∧ State.reset.refusalMark = none ∧ State.reset.trace = []

/-- The invariants hold at reset (R31, R44; the tick is legal whatever its free value, R9). -/
def Obligations.ResetMeetsInvariants : Prop := State.reset.Inv ∧ State.reset.SignalSound

/-- R31 to R34, R44: every step, from any state that meets the invariant, keeps it. -/
def Obligations.StepKeepsInv : Prop := ∀ s t : State, s.Inv → step s = .next t → t.Inv

/-- R137, R145, R85: every step keeps the signal sound: no malformed descriptor is encoded or sent, and every frame sent
whole ends in a real device's reset window. The bound DUR_MAX is presumed (log 9). -/
def Obligations.StepKeepsSignalSound : Prop :=
  ∀ s t : State, s.Inv → s.SignalSound → step s = .next t → t.SignalSound

/-- R31, R44, R137: every state of every run from reset, whatever the host issues, the oracles answer and the legal tick
is, meets both invariants. The bound DUR_MAX in the second is presumed (log 9). -/
def Obligations.ReachableStatesSound : Prop := ∀ s : State, s.Reachable → s.Inv ∧ s.SignalSound

/-- R24 (its "written by" column), R43, R45: which commands can change each field, and that every command gives exactly one
result, takes no further command, keeps the marks and the parameters, and only extends the trace and the requests. -/
def Obligations.FieldsChangedOnlyByTheirWriters : Prop :=
  ∀ (i : Instr) (s t : State), s.Inv → exec i s = .next t →
    (t.ctx.lifecycle ≠ s.ctx.lifecycle → i.row.mnemonic ∈ ["CREATE", "DESTROY"]) ∧
    (t.ctx.deviceType ≠ s.ctx.deviceType → i.row.mnemonic ∈ ["CREATE", "DESTROY", "INITIALIZE"]) ∧
    (t.ctx.length ≠ s.ctx.length → i.row.mnemonic ∈ ["CREATE", "DESTROY", "INITIALIZE"]) ∧
    (t.ctx.maxc ≠ s.ctx.maxc → i.row.mnemonic ∈ ["CREATE", "DESTROY", "INITIALIZE"]) ∧
    (t.ctx.timing ≠ s.ctx.timing → i.row.mnemonic ∈ ["CREATE", "DESTROY", "INITIALIZE"]) ∧
    (t.ctx.pixels ≠ s.ctx.pixels → i.row.mnemonic ∈ ["CREATE", "DESTROY", "SET_PIXEL"]) ∧
    (t.ctx.wire ≠ s.ctx.wire → i.row.mnemonic ∈ ["CREATE", "DESTROY", "FILL_BUFFER"]) ∧
    (t.ctx.txbuf ≠ s.ctx.txbuf → i.row.mnemonic ∈ ["CREATE", "DESTROY", "ENCODE", "TRANSMIT"]) ∧
    (t.ctx.bound ≠ s.ctx.bound → i.row.mnemonic = "BIND") ∧
    (t.trace ≠ s.trace → i.row.mnemonic = "TRANSMIT") ∧
    (t.oracles ≠ s.oracles → i.row.mnemonic ∈ ["CREATE", "ENCODE", "BIND", "TRANSMIT"]) ∧
    s.trace <+: t.trace ∧ s.oracles.asked <+: t.oracles.asked ∧
    (∃ r, t.results = s.results ++ [r]) ∧ t.commands = s.commands ∧ t.params = s.params ∧
    t.faultMark = s.faultMark ∧ t.refusalMark = s.refusalMark

/-- R25, R113: the lifecycle moves only from Uninitialized to Created, by CREATE, and from Created to Destroyed, by
DESTROY; and Destroyed is terminal over any number of steps. -/
def Obligations.LifecycleMoves : Prop :=
  (∀ (i : Instr) (s t : State), exec i s = .next t →
    t.ctx.lifecycle = s.ctx.lifecycle ∨
    (s.ctx.lifecycle = .uninitialized ∧ t.ctx.lifecycle = .created ∧ i.row.mnemonic = "CREATE") ∨
    (s.ctx.lifecycle = .created ∧ t.ctx.lifecycle = .destroyed ∧ i = .destroy .strip)) ∧
  (∀ (s : State) (n : Nat), s.ctx.lifecycle = .destroyed → (advanceBy n s).ctx.lifecycle = .destroyed)

/-- R205: the state each error leaves. -/
def Obligations.ErrorsLeaveNoPartialState : Prop :=
  ∀ (i : Instr) (s t : State) (r : Result), s.Inv → exec i s = .next t → t.results = s.results ++ [r] → r.isOk = false →
    (r = .invalidArgument .handle → t.ctx = s.ctx ∧ t.trace = s.trace ∧ t.oracles = s.oracles) ∧
    (i = .encode .strip → t.ctx = { s.ctx with txbuf := none } ∧ t.trace = s.trace) ∧
    (∀ pin chan, i = .bind .strip pin chan → t.ctx = { s.ctx with bound := none } ∧ t.trace = s.trace) ∧
    (i = .transmit .strip →
      (r = .invalidArgument .state ∧ t.ctx = s.ctx ∧ t.trace = s.trace) ∨
      (∃ chan part code, r = .peripheralError .write code ∧ t.ctx = { s.ctx with txbuf := none } ∧
        t.trace = s.trace ++ [.emittedPartial chan part code])) ∧
    (i.row.mnemonic ∉ ["ENCODE", "BIND", "TRANSMIT"] → t.ctx = s.ctx ∧ t.trace = s.trace)

/-- R23: no command reads a result that was given before (the result record is the model's, log 2). -/
def Obligations.ResultsAreNeverRead : Prop :=
  ∀ (i : Instr) (s : State) (earlier : List Result),
    match exec i s, exec i { s with results := earlier } with
    | .next t, .next t' => ∃ r, t.results = s.results ++ [r] ∧ t' = { t with results := earlier ++ [r] }
    | .fault f, .fault f' => f = f'
    | .refused a, .refused b => a = b
    | _, _ => False

/-- R29, R111: no command reads MAXC; with another ceiling every outcome is the same but for MAXC itself. -/
def Obligations.MaxcIsNeverRead : Prop :=
  ∀ (i : Instr) (s : State) (ceiling : Byte),
    match exec i s, exec i { s with ctx := { s.ctx with maxc := ceiling } } with
    | .next t, .next t' => { t' with ctx := { t'.ctx with maxc := t.ctx.maxc } } = t
    | .fault f, .fault f' => f = f'
    | .refused a, .refused b => a = b
    | _, _ => False

/-! ## Checks shared by several commands -/

/-- R75, R201: a null handle is InvalidArgument(HANDLE) and changes nothing for eight commands, and a fault for
SET_PIXEL. -/
def Obligations.NullHandleOutcomes : Prop :=
  ∀ s : State,
    (∀ i, i = .initStrip .null ∨ (∃ d len maxc, i = .create .null d len maxc) ∨ i = .destroy .null ∨
        i = .fillBuffer .null ∨ i = .derivePulses .null ∨ i = .encode .null ∨ (∃ pin chan, i = .bind .null pin chan) ∨
        i = .transmit .null →
      exec i s = .next { s with results := s.results ++ [.invalidArgument .handle] }) ∧
    (∀ idx r g b, exec (.setPixel .null idx r g b) s = .fault .pixel)

/-- R101, R102, R206: INITIALIZE on a Created strip, and CREATE on one that is not Uninitialized, whatever its other
operands, fault with F_LIFECYCLE. -/
def Obligations.LifecycleFaults : Prop :=
  ∀ s : State,
    (s.ctx.lifecycle = .created → exec (.initStrip .strip) s = .fault .lifecycle) ∧
    (s.ctx.lifecycle ≠ .uninitialized → ∀ d len maxc, exec (.create .strip d len maxc) s = .fault .lifecycle)

/-- R108, R138, R175, R201: FILL_BUFFER, ENCODE and TRANSMIT on a strip that is not Created return
InvalidArgument(STATE); ENCODE leaves TXBUF Absent, which under the invariant changes nothing. -/
def Obligations.NotCreatedIsStateError : Prop :=
  ∀ s : State, s.ctx.lifecycle ≠ .created →
    exec (.fillBuffer .strip) s = .next { s with results := s.results ++ [.invalidArgument .state] } ∧
    exec (.encode .strip) s =
      .next { s with ctx := { s.ctx with txbuf := none }, results := s.results ++ [.invalidArgument .state] } ∧
    exec (.transmit .strip) s = .next { s with results := s.results ++ [.invalidArgument .state] } ∧
    (s.Inv → exec (.encode .strip) s = .next { s with results := s.results ++ [.invalidArgument .state] })

/-! ## Strip manager -/

/-- R101: INITIALIZE on an Uninitialized or Destroyed strip completes with the null state; where the invariant holds it
changes nothing but the result. -/
def Obligations.InitStripCompletes : Prop :=
  ∀ s : State, s.ctx.lifecycle ≠ .created →
    exec (.initStrip .strip) s = .next { s with
      ctx := { lifecycle := s.ctx.lifecycle, deviceType := .none, length := 0, maxc := 0,
               timing := { t0h := 0, t0l := 0, t1h := 0, t1l := 0, resetNs := 0 },
               pixels := none, wire := none, txbuf := none, bound := s.ctx.bound },
      results := s.results ++ [.ok] } ∧
    (s.Inv → exec (.initStrip .strip) s = .next { s with results := s.results ++ [.ok] })

/-- R102: CREATE's argument errors, in their order, with no draw asked and nothing changed. -/
def Obligations.CreateArgumentErrors : Prop :=
  ∀ (s : State) (len : BitVec 16) (maxc : Byte), s.ctx.lifecycle = .uninitialized →
    exec (.create .strip (.known .none) len maxc) s =
      .next { s with results := s.results ++ [.invalidArgument .deviceType] } ∧
    exec (.create .strip .unrecognized len maxc) s =
      .next { s with results := s.results ++ [.invalidArgument .deviceType] } ∧
    (∀ t, t ≠ .none →
      exec (.create .strip (.known t) 0 maxc) s = .next { s with results := s.results ++ [.invalidSize .length] })

/-- R103, R104: where both allocations succeed CREATE completes: the fields as R104 sets them, every pixel (0,0,0), every
wire cell unwritten. -/
def Obligations.CreateCompletes : Prop :=
  ∀ (s : State) (t : DeviceType) (len : BitVec 16) (maxc : Byte) (rest : List AllocAnswer),
    s.ctx.lifecycle = .uninitialized → t ≠ .none → len ≠ 0 → s.oracles.alloc = .ok :: .ok :: rest →
    ∃ pix wire, exec (.create .strip (.known t) len maxc) s = .next { s with
        ctx := { lifecycle := .created, deviceType := t, length := len, maxc := maxc, timing := timingOf t,
                 pixels := some pix, wire := some wire, txbuf := none, bound := s.ctx.bound },
        oracles := { s.oracles with
          alloc := rest,
          asked := s.oracles.asked ++ [.alloc .pix len.toNat, .alloc .wire (len.toNat * 3)] },
        results := s.results ++ [.ok] } ∧
      pix.size = len.toNat ∧ (∀ i, readPixel pix i = ⟨0, 0, 0⟩) ∧
      wire.size = 3 * len.toNat ∧ (∀ k, readByte wire k = none)

/-- R103: where an allocation fails CREATE returns OutOfMemory for it, the strip context is as before, and after the first
failure no second draw is asked. -/
def Obligations.CreateOutOfMemory : Prop :=
  ∀ (s : State) (t : DeviceType) (len : BitVec 16) (maxc : Byte) (rest : List AllocAnswer),
    s.ctx.lifecycle = .uninitialized → t ≠ .none → len ≠ 0 →
    (s.oracles.alloc = .fail :: rest →
      exec (.create .strip (.known t) len maxc) s = .next { s with
        oracles := { s.oracles with alloc := rest, asked := s.oracles.asked ++ [.alloc .pix len.toNat] },
        results := s.results ++ [.outOfMemory .pix] }) ∧
    (s.oracles.alloc = .ok :: .fail :: rest →
      exec (.create .strip (.known t) len maxc) s = .next { s with
        oracles := { s.oracles with
          alloc := rest,
          asked := s.oracles.asked ++ [.alloc .pix len.toNat, .alloc .wire (len.toNat * 3)] },
        results := s.results ++ [.outOfMemory .wire] })

/-- R14, R103, R104, R205: whatever the allocator answers, the free answers included, CREATE with good arguments answers a
next state: Created and whole, or out of memory with the context untouched. -/
def Obligations.CreateUnderEveryAnswer : Prop :=
  ∀ (s : State) (t : DeviceType) (len : BitVec 16) (maxc : Byte),
    s.ctx.lifecycle = .uninitialized → t ≠ .none → len ≠ 0 →
    ∃ u, exec (.create .strip (.known t) len maxc) s = .next u ∧
      ((u.results = s.results ++ [.ok] ∧ u.ctx.lifecycle = .created ∧ u.ctx.pixels.isSome ∧ u.ctx.wire.isSome ∧
          u.ctx.deviceType = t ∧ u.ctx.length = len ∧ u.ctx.maxc = maxc ∧ u.ctx.timing = timingOf t) ∨
        (u.results = s.results ++ [.outOfMemory .pix] ∧ u.ctx = s.ctx) ∨
        (u.results = s.results ++ [.outOfMemory .wire] ∧ u.ctx = s.ctx))

/-- R106: DESTROY completes in every lifecycle state: from Created to Destroyed in the null state with BOUND kept, and
with no change from the others. -/
def Obligations.DestroyCompletes : Prop :=
  ∀ s : State,
    (s.ctx.lifecycle = .created →
      exec (.destroy .strip) s = .next { s with
        ctx := { lifecycle := .destroyed, deviceType := .none, length := 0, maxc := 0,
                 timing := { t0h := 0, t0l := 0, t1h := 0, t1l := 0, resetNs := 0 },
                 pixels := none, wire := none, txbuf := none, bound := s.ctx.bound },
        results := s.results ++ [.ok] }) ∧
    (s.ctx.lifecycle ≠ .created → exec (.destroy .strip) s = .next { s with results := s.results ++ [.ok] })

/-- R107: two DESTROYs in a row give the same state and results as one, and the second returns OK. -/
def Obligations.DestroyIsIdempotent : Prop :=
  ∀ s : State, ∃ t, exec (.destroy .strip) s = .next t ∧ t.results = s.results ++ [.ok] ∧
    exec (.destroy .strip) t = .next { t with results := t.results ++ [.ok] }

/-- R112, R111: SET_PIXEL on a Created strip with the index in range completes: that pixel is exactly the operands, every
other pixel and everything else is as before. -/
def Obligations.SetPixelCompletes : Prop :=
  ∀ (s : State) (pix : Memory Pixel) (idx : BitVec 16) (r g b : Byte),
    s.Inv → s.ctx.pixels = some pix → idx.toNat < s.ctx.length.toNat →
    ∃ pix', exec (.setPixel .strip idx r g b) s =
        .next { s with ctx := { s.ctx with pixels := some pix' }, results := s.results ++ [.ok] } ∧
      pix'.size = pix.size ∧ readPixel pix' idx.toNat = ⟨r, g, b⟩ ∧
      ∀ j, j ≠ idx.toNat → readPixel pix' j = readPixel pix j

/-- R112, R58: SET_PIXEL faults with F_PIXEL on a strip that is not Created and for an index at or above LENGTH. -/
def Obligations.SetPixelFaults : Prop :=
  ∀ (s : State) (idx : BitVec 16) (r g b : Byte),
    s.ctx.lifecycle ≠ .created ∨ s.ctx.length.toNat ≤ idx.toNat → exec (.setPixel .strip idx r g b) s = .fault .pixel

/-- R108, R55: FILL_BUFFER on a Created strip completes: every LED's three wire bytes are its Green, Red and Blue,
verbatim; nothing else changes. -/
def Obligations.FillBufferCompletes : Prop :=
  ∀ (s : State) (pix : Memory Pixel) (wire : Memory Byte),
    s.Inv → s.ctx.pixels = some pix → s.ctx.wire = some wire →
    ∃ wire', exec (.fillBuffer .strip) s =
        .next { s with ctx := { s.ctx with wire := some wire' }, results := s.results ++ [.ok] } ∧
      wire'.size = wire.size ∧
      ∀ i, i < s.ctx.length.toNat →
        readByte wire' (3 * i) = some (readPixel pix i).g ∧
        readByte wire' (3 * i + 1) = some (readPixel pix i).r ∧
        readByte wire' (3 * i + 2) = some (readPixel pix i).b

/-- R109: once FILL_BUFFER has run, a second one writes the same bytes, with no SET_PIXEL in between: in any later state
with the same pixels and wire buffer. -/
def Obligations.FillBufferIsIdempotent : Prop :=
  ∀ (s t u : State), s.Inv → s.ctx.lifecycle = .created → exec (.fillBuffer .strip) s = .next t → u.ctx.lifecycle = .created →
    u.ctx.length = t.ctx.length → u.ctx.pixels = t.ctx.pixels → u.ctx.wire = t.ctx.wire →
    exec (.fillBuffer .strip) u = .next { u with results := u.results ++ [.ok] }

/-! ## Protocol encoder -/

/-- R131, R133: SET_TIMINGS completes in every state: the table's row for each device type, InvalidArgument(DEVICE_TYPE)
for code 7, and nothing written. -/
def Obligations.SetTimingsReturnsTheRow : Prop :=
  ∀ s : State,
    (∀ t row,
      (t = .none ∧ row = (⟨0, 0, 0, 0, 0⟩ : Timing)) ∨
      (t = .ws2812 ∧ row = ⟨350, 800, 700, 600, 50000⟩) ∨
      (t = .ws2812b ∧ row = ⟨300, 1090, 1090, 320, 280000⟩) ∨
      (t = .ws2812d ∧ row = ⟨400, 850, 800, 450, 50000⟩) ∨
      (t = .ws2813 ∧ row = ⟨300, 1090, 1090, 320, 280000⟩) ∨
      (t = .ws2815 ∧ row = ⟨300, 1090, 1090, 320, 280000⟩) ∨
      (t = .ws281x ∧ row = ⟨400, 850, 850, 400, 50000⟩) →
      exec (.setTimings (.known t)) s = .next { s with results := s.results ++ [.okTiming row] }) ∧
    exec (.setTimings .unrecognized) s = .next { s with results := s.results ++ [.invalidArgument .deviceType] }

/-- R134, R135, R136: DERIVE_PULSES completes in every state with the four canonical descriptors of the timing registers,
and nothing written. -/
def Obligations.DerivePulsesCompletes : Prop :=
  ∀ s : State,
    exec (.derivePulses .strip) s = .next { s with results := s.results ++ [.okPulses
      { pd0  := ⟨.high, s.ctx.timing.t0h.toNat / s.params.tickNs, .low, s.ctx.timing.t0l.toNat / s.params.tickNs⟩
        pd1  := ⟨.high, s.ctx.timing.t1h.toNat / s.params.tickNs, .low, s.ctx.timing.t1l.toNat / s.params.tickNs⟩
        pd0r := ⟨.high, s.ctx.timing.t0h.toNat / s.params.tickNs, .low, s.ctx.timing.resetNs.toNat / s.params.tickNs⟩
        pd1r := ⟨.high, s.ctx.timing.t1h.toNat / s.params.tickNs, .low,
                  s.ctx.timing.resetNs.toNat / s.params.tickNs⟩ }] }

/-- R149: a real device type's row is representable at exactly its range of tick resolutions; outside it ENCODE on a
Created strip with written cells faults with F_TIMING. The bound DUR_MAX is presumed (log 9). -/
def Obligations.RepresentableTickRanges : Prop :=
  (∀ (t : DeviceType) (tick : Nat), 1 ≤ tick →
    (representable tick (timingOf t) = true ↔ (tickRange t).1 ≤ tick ∧ tick ≤ (tickRange t).2)) ∧
  tickRange .ws2812 = (2, 350) ∧ tickRange .ws2812b = (9, 300) ∧ tickRange .ws2813 = (9, 300) ∧
  tickRange .ws2815 = (9, 300) ∧ tickRange .ws2812d = (2, 400) ∧ tickRange .ws281x = (2, 400) ∧
  (∀ s : State, s.Inv → s.ctx.lifecycle = .created → s.ctx.allWritten →
    ¬ ((tickRange s.ctx.deviceType).1 ≤ s.params.tickNs ∧ s.params.tickNs ≤ (tickRange s.ctx.deviceType).2) →
    exec (.encode .strip) s = .fault .timing)

/-- R140, R141, R146: ENCODE on a Created strip whose cells are written and whose timing is representable completes, where
its allocation succeeds, with the closed form of R146 in TXBUF and nothing else changed. -/
def Obligations.EncodeCompletes : Prop :=
  ∀ (s : State) (wire : Memory Byte) (rest : List AllocAnswer),
    s.ctx.lifecycle = .created → s.ctx.wire = some wire → wire.size ≠ 0 →
    representable s.params.tickNs s.ctx.timing = true → (∀ k, k < wire.size → (readByte wire k).isSome) →
    s.oracles.alloc = .ok :: rest →
    ∃ seq, exec (.encode .strip) s = .next { s with
        ctx := { s.ctx with txbuf := some seq },
        oracles := { s.oracles with alloc := rest, asked := s.oracles.asked ++ [.alloc .tx (8 * wire.size)] },
        results := s.results ++ [.ok] } ∧
      seq.length = 8 * wire.size ∧
      ∀ i v, i < 8 * wire.size → readByte wire (i / 8) = some v →
        seq[i]? = some
          (if i < 8 * wire.size - 1 then
            (if v.getLsbD (7 - i % 8) then (canonical s.params.tickNs s.ctx.timing).pd1
              else (canonical s.params.tickNs s.ctx.timing).pd0)
          else
            (if v.getLsbD (7 - i % 8) then (canonical s.params.tickNs s.ctx.timing).pd1r
              else (canonical s.params.tickNs s.ctx.timing).pd0r))

/-- R138, R206, R208: on a Created strip ENCODE reports the first of: an empty wire buffer, a timing that is not
representable, an unwritten cell. -/
def Obligations.EncodeChecksInOrder : Prop :=
  ∀ (s : State) (wire : Memory Byte), s.ctx.lifecycle = .created → s.ctx.wire = some wire →
    (wire.size = 0 → exec (.encode .strip) s = .next { s with
      ctx := { s.ctx with txbuf := none }, results := s.results ++ [.invalidSize .bufferLength] }) ∧
    (wire.size ≠ 0 → representable s.params.tickNs s.ctx.timing = false →
      exec (.encode .strip) s = .fault .timing) ∧
    (representable s.params.tickNs s.ctx.timing = true → (∃ k, k < wire.size ∧ readByte wire k = none) →
      exec (.encode .strip) s = .fault .unwritten)

/-- R139: where ENCODE's allocation fails it returns OutOfMemory(TX), and any earlier frame is gone. -/
def Obligations.EncodeOutOfMemory : Prop :=
  ∀ (s : State) (wire : Memory Byte) (rest : List AllocAnswer),
    s.ctx.lifecycle = .created → s.ctx.wire = some wire → wire.size ≠ 0 →
    representable s.params.tickNs s.ctx.timing = true → (∀ k, k < wire.size → (readByte wire k).isSome) →
    s.oracles.alloc = .fail :: rest →
    exec (.encode .strip) s = .next { s with
      ctx := { s.ctx with txbuf := none },
      oracles := { s.oracles with alloc := rest, asked := s.oracles.asked ++ [.alloc .tx (8 * wire.size)] },
      results := s.results ++ [.outOfMemory .tx] }

/-- R14, R139, R142, R144, R145: whatever the allocator answers, the free answers included, an ENCODE that passes its checks
answers a next state: a frame of 24 x LENGTH descriptors that ends in the reset window, or out of memory and no frame. -/
def Obligations.EncodeUnderEveryAnswer : Prop :=
  ∀ (s : State), s.Inv → s.ctx.lifecycle = .created → s.ctx.allWritten →
    representable s.params.tickNs s.ctx.timing = true →
    ∃ u, exec (.encode .strip) s = .next u ∧
      ((∃ seq, u.results = s.results ++ [.ok] ∧ u.ctx = { s.ctx with txbuf := some seq } ∧
          seq.length = 24 * s.ctx.length.toNat ∧ endsInReset s.params.tickNs s.ctx.timing seq = true) ∨
        (u.results = s.results ++ [.outOfMemory .tx] ∧ u.ctx = { s.ctx with txbuf := none }))

/-- R147: ENCODE reads the wire buffer and the timing registers and nothing else of the strip: two states that agree on
them (and on the lifecycle, the tick and the oracles) get the same result and the same frame, or the same fault. -/
def Obligations.EncodeReadsWireAndTimingOnly : Prop :=
  ∀ s s' : State, s'.ctx.lifecycle = s.ctx.lifecycle → s'.ctx.wire = s.ctx.wire → s'.ctx.timing = s.ctx.timing →
    s'.params = s.params → s'.oracles = s.oracles →
    match exec (.encode .strip) s, exec (.encode .strip) s' with
    | .next t, .next t' => t'.ctx.txbuf = t.ctx.txbuf ∧
        ∃ r, t.results = s.results ++ [r] ∧ t'.results = s'.results ++ [r]
    | .fault f, .fault f' => f = f'
    | .refused a, .refused b => a = b
    | _, _ => False

/-- R143: choosing the reset variant by comparing the last encoded descriptor with PD1, as the source does, gives the same
frame as keeping the raw last bit; and where a real row is representable PD0 and PD1 differ. -/
def Obligations.InjectorMethodsAgree : Prop :=
  (∀ (tick : Nat) (t : Timing) (bytes : List Byte), bytes ≠ [] →
    frameOf (canonical tick t) bytes =
      (serializeBytes (canonical tick t) bytes).set (8 * bytes.length - 1)
        (if (serializeBytes (canonical tick t) bytes)[8 * bytes.length - 1]? = some (canonical tick t).pd1
          then (canonical tick t).pd1r else (canonical tick t).pd0r)) ∧
  (∀ (tick : Nat) (t : DeviceType), t ≠ .none → representable tick (timingOf t) = true →
    (canonical tick (timingOf t)).pd0 ≠ (canonical tick (timingOf t)).pd1)

/-- R239, R53: FILL_BUFFER writes every cell; written cells stay written while the strip is Created; and then ENCODE
cannot fault with F_UNWRITTEN. -/
def Obligations.WrittenCellsStayWritten : Prop :=
  (∀ s t : State, s.Inv → s.ctx.lifecycle = .created → exec (.fillBuffer .strip) s = .next t → t.ctx.allWritten) ∧
  (∀ s t : State, s.ctx.lifecycle = .created → s.ctx.allWritten → step s = .next t → t.ctx.allWritten) ∧
  (∀ s : State, s.ctx.allWritten → exec (.encode .strip) s ≠ .fault .unwritten)

/-! ## Transmitter -/

/-- R172, R173: BIND completes in every lifecycle state where the five calls succeed: they are made in the fixed order,
with DIVIDER, and BOUND is the pin and the channel. -/
def Obligations.BindCompletes : Prop :=
  ∀ (s : State) (pin chan : Byte) (rest : List PeriphAnswer),
    s.oracles.periph = .ok :: .ok :: .ok :: .ok :: .ok :: rest →
    exec (.bind .strip pin chan) s = .next { s with
      ctx := { s.ctx with bound := some (pin, chan) },
      oracles := { s.oracles with
        periph := rest,
        asked := s.oracles.asked ++
          [ .periph (.stopChannel chan), .periph (.disableInterrupts chan),
            .periph (.setClockDivider chan s.params.divider), .periph (.configurePin pin),
            .periph (.installDriver chan) ] },
      results := s.results ++ [.ok] }

/-- R172: the first call that fails ends BIND: its name and code are reported, BOUND is absent, no later call is made. -/
def Obligations.BindStopsAtFirstFailure : Prop :=
  ∀ (s : State) (pin chan : Byte) (code : BitVec 32) (rest : List PeriphAnswer) (k : Nat) (call : PeriphCall),
    [ PeriphCall.stopChannel chan, .disableInterrupts chan, .setClockDivider chan s.params.divider, .configurePin pin,
      .installDriver chan ][k]? = some call →
    s.oracles.periph = List.replicate k .ok ++ .err code :: rest →
    exec (.bind .strip pin chan) s = .next { s with
      ctx := { s.ctx with bound := none },
      oracles := { s.oracles with
        periph := rest,
        asked := s.oracles.asked ++ ([ PeriphCall.stopChannel chan, .disableInterrupts chan,
          .setClockDivider chan s.params.divider, .configurePin pin, .installDriver chan ].take (k + 1)).map .periph },
      results := s.results ++ [.peripheralError call.op code] }

/-- R14, R172, R232: whatever the peripheral answers, the free answers included, BIND answers a next state and touches only
BOUND: the pin and the channel with OK, or absent with the failing configuration call's error. -/
def Obligations.BindUnderEveryAnswer : Prop :=
  ∀ (s : State) (pin chan : Byte),
    ∃ u, exec (.bind .strip pin chan) s = .next u ∧ u.trace = s.trace ∧
      ((u.results = s.results ++ [.ok] ∧ u.ctx = { s.ctx with bound := some (pin, chan) }) ∨
        (∃ op code, op ≠ PeriphOp.write ∧ u.results = s.results ++ [.peripheralError op code] ∧
          u.ctx = { s.ctx with bound := none }))

/-- R176, R177: TRANSMIT of an encoded frame on a bound channel completes where the write succeeds: the whole frame is
emitted, TXBUF becomes Absent, nothing else changes. -/
def Obligations.TransmitCompletes : Prop :=
  ∀ (s : State) (pin chan : Byte) (seq : List PulseDescriptor) (rest : List PeriphAnswer),
    s.ctx.lifecycle = .created → s.ctx.bound = some (pin, chan) → s.ctx.txbuf = some seq →
    s.oracles.periph = .ok :: rest →
    exec (.transmit .strip) s = .next { s with
      ctx := { s.ctx with txbuf := none },
      trace := s.trace ++ [.emitted chan seq],
      oracles := { s.oracles with periph := rest, asked := s.oracles.asked ++ [.periph (.write chan seq true)] },
      results := s.results ++ [.ok] }

/-- R178: where the write fails TRANSMIT reports its code unmodified and records the leading part that was sent. -/
def Obligations.TransmitReportsFailure : Prop :=
  ∀ (s : State) (pin chan : Byte) (seq : List PulseDescriptor) (code : BitVec 32) (rest : List PeriphAnswer)
    (n : Nat) (more : List Nat),
    s.ctx.lifecycle = .created → s.ctx.bound = some (pin, chan) → s.ctx.txbuf = some seq →
    s.oracles.periph = .err code :: rest → s.oracles.leading = n :: more →
    exec (.transmit .strip) s = .next { s with
      ctx := { s.ctx with txbuf := none },
      trace := s.trace ++ [.emittedPartial chan (seq.take n) code],
      oracles := { s.oracles with
        periph := rest, leading := more,
        asked := s.oracles.asked ++ [.periph (.write chan seq true), .leading seq] },
      results := s.results ++ [.peripheralError .write code] }

/-- R14, R177, R178, R179: whatever the peripheral answers, the free answers included, a TRANSMIT that reaches the write
answers a next state with TXBUF Absent: the whole frame emitted, or some leading part of it with the error. -/
def Obligations.TransmitUnderEveryAnswer : Prop :=
  ∀ (s : State) (pin chan : Byte) (seq : List PulseDescriptor),
    s.ctx.lifecycle = .created → s.ctx.bound = some (pin, chan) → s.ctx.txbuf = some seq →
    ∃ u, exec (.transmit .strip) s = .next u ∧ u.ctx = { s.ctx with txbuf := none } ∧
      ((u.results = s.results ++ [.ok] ∧ u.trace = s.trace ++ [.emitted chan seq]) ∨
        (∃ part code, part <+: seq ∧ u.results = s.results ++ [.peripheralError .write code] ∧
          u.trace = s.trace ++ [.emittedPartial chan part code]))

/-- R175: on a Created strip TRANSMIT faults with F_UNBOUND where BOUND is absent, checked first, and with F_NOT_ENCODED
where TXBUF is Absent. -/
def Obligations.TransmitFaults : Prop :=
  ∀ s : State, s.ctx.lifecycle = .created →
    (s.ctx.bound = none → exec (.transmit .strip) s = .fault .unbound) ∧
    (s.ctx.bound.isSome → s.ctx.txbuf = none → exec (.transmit .strip) s = .fault .notEncoded)

/-! ## The whole block -/

/-- R88, R55, R56, R146, R177: `SHOW` on a Created and bound strip whose timing is representable, where its allocation and
its write succeed, puts on the wire exactly the strip's pixels: Green, Red, Blue of each LED in order, each byte most
significant bit first, the last bit as its reset variant. -/
def Obligations.ShowSendsThePixels : Prop :=
  ∀ (s : State) (pix : Memory Pixel) (pin chan : Byte) (allocs : List AllocAnswer) (answers : List PeriphAnswer),
    s.Inv → s.ctx.lifecycle = .created → s.ctx.pixels = some pix → s.ctx.bound = some (pin, chan) →
    representable s.params.tickNs s.ctx.timing = true →
    s.oracles.alloc = .ok :: allocs → s.oracles.periph = .ok :: answers →
    ∃ u seq, showFrame .strip s = .next u ∧ u.trace = s.trace ++ [.emitted chan seq] ∧ u.ctx.txbuf = none ∧
      u.ctx.pixels = some pix ∧ u.results = s.results ++ [.ok, .ok, .ok] ∧
      seq.length = 24 * s.ctx.length.toNat ∧
      ∀ i, i < 24 * s.ctx.length.toNat →
        let p := readPixel pix (i / 24)
        let v := if i % 24 / 8 = 0 then p.g else if i % 24 / 8 = 1 then p.r else p.b
        let c := canonical s.params.tickNs s.ctx.timing
        seq[i]? = some
          (if i < 24 * s.ctx.length.toNat - 1 then (if v.getLsbD (7 - i % 8) then c.pd1 else c.pd0)
            else (if v.getLsbD (7 - i % 8) then c.pd1r else c.pd0r))

/-- R88: a host that runs `SHOW` stops at the first result other than OK: on a strip that is not Created after FILL_BUFFER,
and where ENCODE runs out of memory before TRANSMIT. -/
def Obligations.ShowStopsAtFirstError : Prop :=
  ∀ s : State,
    (s.ctx.lifecycle ≠ .created →
      showFrame .strip s = .next { s with results := s.results ++ [.invalidArgument .state] }) ∧
    (∀ rest, s.Inv → s.ctx.lifecycle = .created → representable s.params.tickNs s.ctx.timing = true →
      s.oracles.alloc = .fail :: rest →
      ∃ u, showFrame .strip s = .next u ∧ u.results = s.results ++ [.ok, .outOfMemory .tx] ∧ u.trace = s.trace ∧
        u.ctx.txbuf = none)

/-! ## The wire -/

/-- R183, R184, R185: the waveform of a sequence lasts exactly its wire time. That it is the plain sum of the durations
rests on "no gap", the spec's own reading (D43; log 18). -/
def Obligations.WaveLastsWireTime : Prop :=
  ∀ (tick : Nat) (seq : List PulseDescriptor),
    waveLength (wave tick seq) = tick * (seq.map fun pd => pd.duration0 + pd.duration1).sum ∧
    wireTime tick seq = tick * (seq.map fun pd => pd.duration0 + pd.duration1).sum

/-- R183, R184: descriptors follow one another with no gap, each at its first level and then at its second for its
durations in ticks, and after the last one the line is low. "No gap" is the spec's own reading (D43; log 18). -/
def Obligations.LineLevels : Prop :=
  ∀ (tick : Nat) (before after : List PulseDescriptor) (pd : PulseDescriptor) (t : Nat),
    (t < pd.duration0 * tick → levelAt (wave tick (before ++ pd :: after)) (wireTime tick before + t) = pd.level0) ∧
    (t < pd.duration1 * tick →
      levelAt (wave tick (before ++ pd :: after)) (wireTime tick before + pd.duration0 * tick + t) = pd.level1) ∧
    (wireTime tick before ≤ t → levelAt (wave tick before) t = .low)

/-- R186, R145: a frame's wave ends in a low of the reset window, in whole ticks, less than one tick short of RESET_NS. -/
def Obligations.FrameEndsInResetWindow : Prop :=
  ∀ (tick : Nat) (t : Timing) (bytes : List Byte), 1 ≤ tick → bytes ≠ [] →
    (wave tick (frameOf (canonical tick t) bytes)).getLast? = some (.low, ticks tick t.resetNs * tick) ∧
    ticks tick t.resetNs * tick ≤ t.resetNs.toNat ∧ t.resetNs.toNat < ticks tick t.resetNs * tick + tick

/-- R82: a descriptor packs exactly when both durations are at most DUR_MAX, every sound one packs, and the word gives back
the descriptor by its bit positions. The layout is presumed by the spec (log 9). -/
def Obligations.PackedPulseRoundTrip : Prop :=
  ∀ pd : PulseDescriptor,
    ((packPulse pd).isSome = true ↔ pd.duration0 ≤ 32767 ∧ pd.duration1 ≤ 32767) ∧
    (pulseSound pd = true → (packPulse pd).isSome = true) ∧
    (∀ v, packPulse pd = some v → unpackPulse v = pd)

/-- R184: at every moment around an event of the trace the line is low before its first descriptor and from its last one's
end on, and between them it is at its waveform's level. "No gap" is the spec's own reading (D43; log 18); that all this holds of
the part a failed write sent, low after it included, is the model's choice (log 21). -/
def Obligations.LineIdlesLow : Prop :=
  ∀ (tick : Nat) (e : Event) (t : Int),
    (t < 0 → e.lineLevel tick t = .low) ∧
    ((wireTime tick e.sent : Int) ≤ t → e.lineLevel tick t = .low) ∧
    (0 ≤ t → t < (wireTime tick e.sent : Int) →
      ∃ before pd after, e.sent = before ++ pd :: after ∧ (wireTime tick before : Int) ≤ t ∧
        ((t < (wireTime tick before + pd.duration0 * tick : Nat) ∧ e.lineLevel tick t = pd.level0) ∨
          ((wireTime tick before + pd.duration0 * tick : Nat) ≤ t ∧
            t < (wireTime tick (before ++ [pd]) : Nat) ∧ e.lineLevel tick t = pd.level1)))
end

