-- ==== Sys2Proof/Laws/Decode.lean ====
section
/-! SUPPORT. The laws of the word's fields and of the operand codes, from which the decoder and the encoder are reasoned about. -/

namespace Sys2Proof

/-- Cutting a word made from fields gives the fields back. -/
@[simp] theorem Fields.ofWord_toWord (f : Fields) : Fields.ofWord f.toWord = f := by
  cases f with | mk op hv dtype maxc len r g b reserved =>
  simp only [Fields.ofWord, Fields.toWord, fieldAt, Fields.mk.injEq]
  refine ⟨?_, ?_, ?_, ?_, ?_, ?_, ?_, ?_, ?_⟩ <;>
  · apply BitVec.eq_of_getLsbD_eq
    intro i hi
    simp only [BitVec.getLsbD_extractLsb', BitVec.getLsbD_or, BitVec.getLsbD_shiftLeft, BitVec.getLsbD_setWidth, hi,
      decide_true, Bool.true_and]
    interval_cases i <;> simp

/-- The fields cover every bit of the word. -/
@[simp] theorem Fields.toWord_ofWord (w : CmdWord) : (Fields.ofWord w).toWord = w := by
  apply BitVec.eq_of_getLsbD_eq
  intro i hi
  simp only [Fields.ofWord, Fields.toWord, fieldAt, BitVec.getLsbD_or, BitVec.getLsbD_shiftLeft, BitVec.getLsbD_setWidth,
    BitVec.getLsbD_extractLsb', hi, decide_true, Bool.true_and]
  interval_cases i <;> simp

@[simp] theorem Handle.ofBit_bit (h : Handle) : Handle.ofBit h.bit = h := by cases h <;> rfl

@[simp] theorem Handle.bit_ofBit (v : BitVec 1) : (Handle.ofBit v).bit = v := by
  revert v; decide

@[simp] theorem DType.ofCode_code (d : DType) : DType.ofCode d.code = d := by
  cases d with
  | known t => cases t <;> rfl
  | unrecognized => rfl

@[simp] theorem DType.code_ofCode (c : BitVec 3) : (DType.ofCode c).code = c := by
  revert c; decide

end Sys2Proof
end

