-- ==== Sys2Proof/Laws/State.lean ====
section
/-! SUPPORT. One lemma per field of each update of the state and the context, so that no later proof unfolds a record update. -/

namespace Sys2Proof.Machine

section Report
variable (s : State) (r : Result)
@[simp] theorem State.report_ctx : (s.report r).ctx = s.ctx := rfl
@[simp] theorem State.report_faultMark : (s.report r).faultMark = s.faultMark := rfl
@[simp] theorem State.report_refusalMark : (s.report r).refusalMark = s.refusalMark := rfl
@[simp] theorem State.report_trace : (s.report r).trace = s.trace := rfl
@[simp] theorem State.report_results : (s.report r).results = s.results ++ [r] := rfl
@[simp] theorem State.report_commands : (s.report r).commands = s.commands := rfl
@[simp] theorem State.report_oracles : (s.report r).oracles = s.oracles := rfl
@[simp] theorem State.report_params : (s.report r).params = s.params := rfl
end Report

section SetCtx
variable (s : State) (c : Ctx)
@[simp] theorem State.setCtx_ctx : (s.setCtx c).ctx = c := rfl
@[simp] theorem State.setCtx_faultMark : (s.setCtx c).faultMark = s.faultMark := rfl
@[simp] theorem State.setCtx_refusalMark : (s.setCtx c).refusalMark = s.refusalMark := rfl
@[simp] theorem State.setCtx_trace : (s.setCtx c).trace = s.trace := rfl
@[simp] theorem State.setCtx_results : (s.setCtx c).results = s.results := rfl
@[simp] theorem State.setCtx_commands : (s.setCtx c).commands = s.commands := rfl
@[simp] theorem State.setCtx_oracles : (s.setCtx c).oracles = s.oracles := rfl
@[simp] theorem State.setCtx_params : (s.setCtx c).params = s.params := rfl
@[simp] theorem State.setCtx_self : s.setCtx s.ctx = s := rfl
@[simp] theorem State.setCtx_setCtx (d : Ctx) : (s.setCtx c).setCtx d = s.setCtx d := rfl
end SetCtx

section Emit
variable (s : State) (e : Event)
@[simp] theorem State.emit_ctx : (s.emit e).ctx = s.ctx := rfl
@[simp] theorem State.emit_faultMark : (s.emit e).faultMark = s.faultMark := rfl
@[simp] theorem State.emit_refusalMark : (s.emit e).refusalMark = s.refusalMark := rfl
@[simp] theorem State.emit_trace : (s.emit e).trace = s.trace ++ [e] := rfl
@[simp] theorem State.emit_results : (s.emit e).results = s.results := rfl
@[simp] theorem State.emit_commands : (s.emit e).commands = s.commands := rfl
@[simp] theorem State.emit_oracles : (s.emit e).oracles = s.oracles := rfl
@[simp] theorem State.emit_params : (s.emit e).params = s.params := rfl
end Emit

section WithOracles
variable (s : State) (o : Oracles)
@[simp] theorem State.withOracles_ctx : (s.withOracles o).ctx = s.ctx := rfl
@[simp] theorem State.withOracles_faultMark : (s.withOracles o).faultMark = s.faultMark := rfl
@[simp] theorem State.withOracles_refusalMark : (s.withOracles o).refusalMark = s.refusalMark := rfl
@[simp] theorem State.withOracles_trace : (s.withOracles o).trace = s.trace := rfl
@[simp] theorem State.withOracles_results : (s.withOracles o).results = s.results := rfl
@[simp] theorem State.withOracles_commands : (s.withOracles o).commands = s.commands := rfl
@[simp] theorem State.withOracles_oracles : (s.withOracles o).oracles = o := rfl
@[simp] theorem State.withOracles_params : (s.withOracles o).params = s.params := rfl
end WithOracles

section Setters
variable (s : State)
@[simp] theorem State.setTxbuf_eq (tx : Option (List PulseDescriptor)) :
    s.setTxbuf tx = s.setCtx { s.ctx with txbuf := tx } := rfl
@[simp] theorem State.setBound_eq (b : Option (Byte × Byte)) :
    s.setBound b = s.setCtx { s.ctx with bound := b } := rfl
@[simp] theorem State.setPixels_eq (m : Memory Pixel) :
    s.setPixels m = s.setCtx { s.ctx with pixels := some m } := rfl
@[simp] theorem State.setWire_eq (m : Memory Byte) :
    s.setWire m = s.setCtx { s.ctx with wire := some m } := rfl
end Setters

section Null
variable (c : Ctx)
@[simp] theorem Ctx.null_lifecycle : c.null.lifecycle = c.lifecycle := rfl
@[simp] theorem Ctx.null_deviceType : c.null.deviceType = .none := rfl
@[simp] theorem Ctx.null_length : c.null.length = 0 := rfl
@[simp] theorem Ctx.null_maxc : c.null.maxc = 0 := rfl
@[simp] theorem Ctx.null_timing : c.null.timing = Timing.zero := rfl
@[simp] theorem Ctx.null_pixels : c.null.pixels = none := rfl
@[simp] theorem Ctx.null_wire : c.null.wire = none := rfl
@[simp] theorem Ctx.null_txbuf : c.null.txbuf = none := rfl
@[simp] theorem Ctx.null_bound : c.null.bound = c.bound := rfl
@[simp] theorem Ctx.null_null : c.null.null = c.null := rfl
end Null

section Create
variable (c : Ctx) (t : DeviceType) (len : BitVec 16) (maxc : Byte)
@[simp] theorem Ctx.create_lifecycle : (c.create t len maxc).lifecycle = .created := rfl
@[simp] theorem Ctx.create_deviceType : (c.create t len maxc).deviceType = t := rfl
@[simp] theorem Ctx.create_length : (c.create t len maxc).length = len := rfl
@[simp] theorem Ctx.create_maxc : (c.create t len maxc).maxc = maxc := rfl
@[simp] theorem Ctx.create_timing : (c.create t len maxc).timing = timingOf t := rfl
@[simp] theorem Ctx.create_pixels : (c.create t len maxc).pixels = some (Memory.fresh len.toNat) := rfl
@[simp] theorem Ctx.create_wire :
    (c.create t len maxc).wire = some (Memory.fresh (len.toNat * bytesPerLed t)) := rfl
@[simp] theorem Ctx.create_txbuf : (c.create t len maxc).txbuf = none := rfl
@[simp] theorem Ctx.create_bound : (c.create t len maxc).bound = c.bound := rfl
end Create

/-- The none row of the timing table is all zero (41_protocol_encoder.md R131). -/
@[simp] theorem timingOf_none : timingOf .none = Timing.zero := rfl

/-- A real device type takes three bytes an LED (40_strip_manager.md R110). -/
theorem bytesPerLed_of_real {t : DeviceType} (h : t ≠ .none) : bytesPerLed t = 3 := by
  cases t <;> first | rfl | exact absurd rfl h

end Sys2Proof.Machine
end

