-- ==== Sys2Proof/Laws/Ops.lean ====
section
/-! SUPPORT. One specification for each shared operation: what a draw, a list of calls and taking a command can do. -/

namespace Sys2Proof.Machine

/-- A draw of the allocator changes the oracles alone. -/
theorem drawAlloc_state (k : AllocKind) (n : Nat) (s : State) :
    (drawAlloc k n s).2 = { s with oracles := (drawAlloc k n s).2.oracles } := by
  unfold drawAlloc; split <;> rfl

/-- A draw of the allocator is recorded as asked. -/
theorem drawAlloc_asked (k : AllocKind) (n : Nat) (s : State) :
    (drawAlloc k n s).2.oracles.asked = s.oracles.asked ++ [.alloc k n] := by
  unfold drawAlloc; split <;> rfl

/-- A fixed answer of the allocator is the one given. -/
theorem drawAlloc_queued {k : AllocKind} {n : Nat} {s : State} {a : AllocAnswer} {rest : List AllocAnswer}
    (h : s.oracles.alloc = a :: rest) :
    drawAlloc k n s =
      (a, s.withOracles { s.oracles with alloc := rest, asked := s.oracles.asked ++ [.alloc k n] }) := by
  simp [drawAlloc, h]

/-- A draw of the peripheral changes the oracles alone. -/
theorem drawPeriph_state (c : PeriphCall) (s : State) :
    (drawPeriph c s).2 = { s with oracles := (drawPeriph c s).2.oracles } := by
  unfold drawPeriph; split <;> rfl

theorem drawPeriph_asked (c : PeriphCall) (s : State) :
    (drawPeriph c s).2.oracles.asked = s.oracles.asked ++ [.periph c] := by
  unfold drawPeriph; split <;> rfl

/-- A fixed answer of the peripheral is the one given. -/
theorem drawPeriph_queued {c : PeriphCall} {s : State} {a : PeriphAnswer} {rest : List PeriphAnswer}
    (h : s.oracles.periph = a :: rest) :
    drawPeriph c s =
      (a, s.withOracles { s.oracles with periph := rest, asked := s.oracles.asked ++ [.periph c] }) := by
  simp [drawPeriph, h]

/-- A `Prefix` draw changes the oracles alone. -/
theorem drawLeading_state (seq : List PulseDescriptor) (s : State) :
    (drawLeading seq s).2 = { s with oracles := (drawLeading seq s).2.oracles } := by
  unfold drawLeading; split <;> rfl

theorem drawLeading_asked (seq : List PulseDescriptor) (s : State) :
    (drawLeading seq s).2.oracles.asked = s.oracles.asked ++ [.leading seq] := by
  unfold drawLeading; split <;> rfl

/-- A `Prefix` draw answers a leading part of the sequence. -/
theorem drawLeading_take (seq : List PulseDescriptor) (s : State) : ∃ n, (drawLeading seq s).1 = seq.take n := by
  unfold drawLeading; split <;> exact ⟨_, rfl⟩

/-- A fixed length is the one given. -/
theorem drawLeading_queued {seq : List PulseDescriptor} {s : State} {n : Nat} {rest : List Nat}
    (h : s.oracles.leading = n :: rest) :
    drawLeading seq s = (seq.take n,
      s.withOracles { s.oracles with leading := rest, asked := s.oracles.asked ++ [.leading seq] }) := by
  simp [drawLeading, h]

/-- Calls change the oracles alone. -/
theorem callAll_state (calls : List PeriphCall) (s : State) :
    (callAll calls s).2 = { s with oracles := (callAll calls s).2.oracles } := by
  induction calls generalizing s with
  | nil => rfl
  | cons c rest ih =>
    have hs := drawPeriph_state c s
    unfold callAll
    rcases hd : drawPeriph c s with ⟨a, s'⟩
    rw [hd] at hs
    simp only at hs
    cases a with
    | ok =>
      simp only
      rw [ih s']
      rw [hs]
    | err code => simpa using hs

/-- A failure reported by calls is that of one of them. -/
theorem callAll_failed {calls : List PeriphCall} {s : State} {op : PeriphOp} {code : BitVec 32}
    (h : (callAll calls s).1 = some (op, code)) : op ∈ calls.map PeriphCall.op := by
  induction calls generalizing s with
  | nil => simp [callAll] at h
  | cons c rest ih =>
    unfold callAll at h
    rcases hd : drawPeriph c s with ⟨a, s'⟩
    rw [hd] at h
    cases a with
    | ok => simp only at h; exact List.mem_cons_of_mem _ (ih h)
    | err code' => simp at h; simp [h.1]

/-- Taking a command: what it can answer with, and when. -/
theorem takeCommand_next {s : State} {o : Option Instr × State} (h : takeCommand s = .next o) :
    s.faultMark = none ∧ s.refusalMark = none ∧
      ((s.commands = [] ∧ o = (none, s)) ∨
        ∃ w rest i, s.commands = w :: rest ∧ decode w = .ok i ∧ o = (some i, { s with commands := rest })) := by
  unfold takeCommand at h
  split at h
  · cases h
  · split at h
    · cases h
    · rename_i hf _ hr
      refine ⟨hf, hr, ?_⟩
      split at h
      · rename_i hc
        cases h
        exact .inl ⟨hc, rfl⟩
      · rename_i w rest hc
        split at h
        · rename_i i hd
          cases h
          exact .inr ⟨w, rest, i, hc, hd, rfl⟩
        · cases h

/-- One step that answers a next state: idle, or one decoded command run. -/
theorem step_next {s t : State} (h : step s = .next t) :
    s.faultMark = none ∧ s.refusalMark = none ∧
      ((s.commands = [] ∧ t = s) ∨
        ∃ w rest i, s.commands = w :: rest ∧ decode w = .ok i ∧ exec i { s with commands := rest } = .next t) := by
  unfold step at h
  split at h
  · cases h
  · cases h
  · rename_i u hu
    cases h
    obtain ⟨hf, hr, ⟨hc, ho⟩ | ⟨w, rest, i, -, -, ho⟩⟩ := takeCommand_next hu
    · cases ho; exact ⟨hf, hr, .inl ⟨hc, rfl⟩⟩
    · cases ho
  · rename_i i u hu
    obtain ⟨hf, hr, ⟨-, ho⟩ | ⟨w, rest, j, hc, hd, ho⟩⟩ := takeCommand_next hu
    · cases ho
    · cases ho; exact ⟨hf, hr, .inr ⟨w, rest, _, hc, hd, h⟩⟩

end Sys2Proof.Machine
end

