-- ==== Sys2Proof/Laws/Exec.lean ====
section
/-! SUPPORT. One inversion lemma per meaning: everything the command can do when it answers a next state. -/

namespace Sys2Proof.Machine

theorem drawAlloc_snd (k : AllocKind) (n : Nat) (s : State) :
    ∃ o, (drawAlloc k n s).2 = s.withOracles o := ⟨_, drawAlloc_state k n s⟩

theorem drawPeriph_snd (c : PeriphCall) (s : State) : ∃ o, (drawPeriph c s).2 = s.withOracles o :=
  ⟨_, drawPeriph_state c s⟩

theorem drawLeading_snd (seq : List PulseDescriptor) (s : State) :
    ∃ o, (drawLeading seq s).2 = s.withOracles o := ⟨_, drawLeading_state seq s⟩

theorem callAll_snd (calls : List PeriphCall) (s : State) : ∃ o, (callAll calls s).2 = s.withOracles o :=
  ⟨_, callAll_state calls s⟩

theorem execInitStrip_next {h : Handle} {s t : State} (e : execInitStrip h s = .next t) :
    (h = .null ∧ t = s.report (.invalidArgument .handle)) ∨
      (h = .strip ∧ s.ctx.lifecycle ≠ .created ∧ t = (s.setCtx s.ctx.null).report .ok) := by
  cases h with
  | null => cases e; exact .inl ⟨rfl, rfl⟩
  | strip =>
    simp only [execInitStrip] at e
    split at e
    · cases e
    · rename_i hl; cases e; exact .inr ⟨rfl, hl, rfl⟩

/-- A real device type of an operand is never `none`. -/
theorem realDevice?_eq_some {d : DType} {t : DeviceType} : realDevice? d = some t ↔ d = .known t ∧ t ≠ .none := by
  cases d with
  | known u =>
    simp only [realDevice?]
    by_cases hu : u = .none
    · simp only [hu, if_true, reduceCtorEq, DType.known.injEq, false_iff, not_and, not_not]
      exact fun h => h.symm
    · simp only [hu, if_false, Option.some.injEq, DType.known.injEq]
      constructor
      · rintro rfl; exact ⟨rfl, hu⟩
      · exact fun h => h.1
  | unrecognized => simp [realDevice?]

theorem execCreate_next {h : Handle} {d : DType} {len : BitVec 16} {maxc : Byte} {s t : State}
    (e : execCreate h d len maxc s = .next t) :
    (∃ r o, r.isOk = false ∧ t = (s.withOracles o).report r) ∨
      (∃ dt o, h = .strip ∧ s.ctx.lifecycle = .uninitialized ∧ d = .known dt ∧ dt ≠ .none ∧ len ≠ 0 ∧
        t = ((s.withOracles o).setCtx (s.ctx.create dt len maxc)).report .ok) := by
  cases h with
  | null => cases e; exact .inl ⟨_, s.oracles, rfl, rfl⟩
  | strip =>
    simp only [execCreate] at e
    split at e
    · cases e
    · rename_i hl
      split at e
      · cases e; exact .inl ⟨_, s.oracles, rfl, rfl⟩
      · rename_i dt hd
        split at e
        · cases e; exact .inl ⟨_, s.oracles, rfl, rfl⟩
        · rename_i hlen
          obtain ⟨o1, h1⟩ := drawAlloc_snd .pix len.toNat s
          split at e
          · rename_i s1 hs1
            rw [hs1] at h1; cases e
            exact .inl ⟨_, o1, rfl, by rw [← h1]⟩
          · rename_i s1 hs1
            rw [hs1] at h1
            obtain ⟨o2, h2⟩ := drawAlloc_snd .wire (len.toNat * bytesPerLed dt) s1
            split at e
            · rename_i s2 hs2
              rw [hs2] at h2; cases e
              refine .inl ⟨.outOfMemory .wire, o2, rfl, ?_⟩
              simp only at h1 h2
              rw [h2, h1]; rfl
            · rename_i s2 hs2
              rw [hs2] at h2; cases e
              obtain ⟨h3, h4⟩ := realDevice?_eq_some.mp hd
              refine .inr ⟨dt, o2, rfl, by simpa using hl, h3, h4, hlen, ?_⟩
              simp only at h1 h2
              rw [h2, h1]; rfl

theorem execDestroy_next {h : Handle} {s t : State} (e : execDestroy h s = .next t) :
    (h = .null ∧ t = s.report (.invalidArgument .handle)) ∨
      (h = .strip ∧ s.ctx.lifecycle ≠ .created ∧ t = s.report .ok) ∨
        (h = .strip ∧ s.ctx.lifecycle = .created ∧
          t = (s.setCtx { s.ctx.null with lifecycle := .destroyed }).report .ok) := by
  cases h with
  | null => cases e; exact .inl ⟨rfl, rfl⟩
  | strip =>
    simp only [execDestroy] at e
    split at e <;> cases e <;> rename_i hl
    · exact .inr (.inr ⟨rfl, hl, rfl⟩)
    · exact .inr (.inl ⟨rfl, by simp [hl], rfl⟩)
    · exact .inr (.inl ⟨rfl, by simp [hl], rfl⟩)

theorem createdPixels?_eq_some {c : Ctx} {m : Memory Pixel} :
    createdPixels? c = some m ↔ c.lifecycle = .created ∧ c.pixels = some m := by
  unfold createdPixels?; split <;> simp_all

theorem createdWire?_eq_some {c : Ctx} {m : Memory Byte} :
    createdWire? c = some m ↔ c.lifecycle = .created ∧ c.wire = some m := by
  unfold createdWire?; split <;> simp_all

theorem execSetPixel_next {h : Handle} {idx : BitVec 16} {r g b : Byte} {s t : State}
    (e : execSetPixel h idx r g b s = .next t) :
    ∃ pix, h = .strip ∧ s.ctx.lifecycle = .created ∧ s.ctx.pixels = some pix ∧ idx.toNat < s.ctx.length.toNat ∧
      t = (s.setPixels (writePixel pix idx.toNat ⟨r, g, b⟩)).report .ok := by
  cases h with
  | null => cases e
  | strip =>
    simp only [execSetPixel] at e
    split at e
    · cases e
    · rename_i pix hp
      split at e
      · cases e
      · rename_i hi
        obtain ⟨h1, h2⟩ := createdPixels?_eq_some.mp hp
        cases e
        exact ⟨pix, rfl, h1, h2, by omega, rfl⟩

theorem execFillBuffer_next {h : Handle} {s t : State} (e : execFillBuffer h s = .next t) :
    (∃ r, r.isOk = false ∧ t = s.report r) ∨
      (∃ pix wire, h = .strip ∧ s.ctx.lifecycle = .created ∧ s.ctx.pixels = some pix ∧ s.ctx.wire = some wire ∧
        t = (s.setWire (serializePixels pix wire s.ctx.length.toNat)).report .ok) := by
  cases h with
  | null => cases e; exact .inl ⟨_, rfl, rfl⟩
  | strip =>
    simp only [execFillBuffer] at e
    split at e
    · rename_i pix wire hp hw
      obtain ⟨h1, h2⟩ := createdPixels?_eq_some.mp hp
      cases e
      exact .inr ⟨pix, wire, rfl, h1, h2, (createdWire?_eq_some.mp hw).2, rfl⟩
    · cases e; exact .inl ⟨_, rfl, rfl⟩

theorem execSetTimings_next {d : DType} {s t : State} (e : execSetTimings d s = .next t) :
    ∃ r, t = s.report r := by
  unfold execSetTimings at e
  split at e <;> cases e <;> exact ⟨_, rfl⟩

theorem execDerivePulses_next {h : Handle} {s t : State} (e : execDerivePulses h s = .next t) :
    ∃ r, t = s.report r := by
  cases h <;> cases e <;> exact ⟨_, rfl⟩

theorem execEncode_next {h : Handle} {s t : State} (e : execEncode h s = .next t) :
    (h = .null ∧ t = s.report (.invalidArgument .handle)) ∨
      (∃ r o, h = .strip ∧ r.isOk = false ∧ t = ((s.withOracles o).setTxbuf none).report r) ∨
        (∃ wire bytes o, h = .strip ∧ s.ctx.lifecycle = .created ∧ s.ctx.wire = some wire ∧ wire.size ≠ 0 ∧
          representable s.params.tickNs s.ctx.timing = true ∧ wireBytes wire = some bytes ∧
          t = ((s.withOracles o).setTxbuf (some (frameOf (canonical s.params.tickNs s.ctx.timing) bytes))).report .ok) := by
  cases h with
  | null => cases e; exact .inl ⟨rfl, rfl⟩
  | strip =>
    simp only [execEncode] at e
    refine .inr ?_
    split at e
    · cases e; exact .inl ⟨_, s.oracles, rfl, rfl, rfl⟩
    · rename_i wire hw
      obtain ⟨h1, h2⟩ := createdWire?_eq_some.mp hw
      split at e
      · cases e; exact .inl ⟨_, s.oracles, rfl, rfl, rfl⟩
      · rename_i hn
        split at e
        · cases e
        · rename_i hr
          split at e
          · cases e
          · rename_i bytes hb
            obtain ⟨o, ho⟩ := drawAlloc_snd .tx (8 * wire.size) s
            split at e <;> rename_i s1 hs1 <;> rw [hs1] at ho <;> simp only at ho <;> cases e <;> subst ho
            · exact .inl ⟨_, o, rfl, rfl, rfl⟩
            · exact .inr ⟨wire, bytes, o, rfl, h1, h2, hn, by simpa using hr, hb, rfl⟩

theorem execBind_next {h : Handle} {pin chan : Byte} {s t : State} (e : execBind h pin chan s = .next t) :
    (h = .null ∧ t = s.report (.invalidArgument .handle)) ∨
      (∃ op code o, h = .strip ∧ t = ((s.withOracles o).setBound none).report (.peripheralError op code)) ∨
        (∃ o, h = .strip ∧ t = ((s.withOracles o).setBound (some (pin, chan))).report .ok) := by
  cases h with
  | null => cases e; exact .inl ⟨rfl, rfl⟩
  | strip =>
    simp only [execBind] at e
    refine .inr ?_
    obtain ⟨o, ho⟩ := callAll_snd (bindCalls s.params.divider pin chan) (s.setBound none)
    split at e
    · rename_i op code s1 hs1
      rw [hs1] at ho; simp only at ho; cases e; subst ho
      exact .inl ⟨op, code, o, rfl, rfl⟩
    · rename_i s1 hs1
      rw [hs1] at ho; simp only at ho; cases e; subst ho
      exact .inr ⟨o, rfl, rfl⟩

theorem execTransmit_next {h : Handle} {s t : State} (e : execTransmit h s = .next t) :
    (∃ c, t = s.report (.invalidArgument c)) ∨
      (∃ pin chan seq o, h = .strip ∧ s.ctx.lifecycle = .created ∧ s.ctx.bound = some (pin, chan) ∧
        s.ctx.txbuf = some seq ∧
        t = (((s.withOracles o).emit (.emitted chan seq)).setTxbuf none).report .ok) ∨
        (∃ pin chan seq n code o, h = .strip ∧ s.ctx.lifecycle = .created ∧ s.ctx.bound = some (pin, chan) ∧
          s.ctx.txbuf = some seq ∧
          t = (((s.withOracles o).emit (.emittedPartial chan (seq.take n) code)).setTxbuf none).report
            (.peripheralError .write code)) := by
  cases h with
  | null => cases e; exact .inl ⟨_, rfl⟩
  | strip =>
    simp only [execTransmit] at e
    split at e
    · cases e; exact .inl ⟨_, rfl⟩
    · rename_i hl
      refine .inr ?_
      have hl' : s.ctx.lifecycle = .created := by simpa using hl
      split at e
      · cases e
      · rename_i pin chan hb
        split at e
        · cases e
        · rename_i seq hs
          obtain ⟨o, ho⟩ := drawPeriph_snd (.write chan seq true) s
          split at e
          · rename_i s1 hs1
            rw [hs1] at ho; simp only at ho; cases e; subst ho
            exact .inl ⟨pin, chan, seq, o, rfl, hl', hb, hs, rfl⟩
          · rename_i code s1 hs1
            rw [hs1] at ho; simp only at ho
            obtain ⟨n, hn⟩ := drawLeading_take seq s1
            obtain ⟨o2, ho2⟩ := drawLeading_snd seq s1
            cases e; subst ho
            refine .inr ⟨pin, chan, seq, n, code, o2, rfl, hl', hb, hs, ?_⟩
            rw [ho2, hn]; rfl

end Sys2Proof.Machine
end

