-- ==== Sys2Proof/Laws/Memory.lean ====
section
/-! SUPPORT. The laws of the two memories: read after write, the canonical form, the loops of FILL_BUFFER and of the wire buffer's reading. -/

namespace Sys2Proof.Machine

variable {α : Type}

/-- A read at the index just listed gives the value listed; any other read is as before. -/
theorem findCell_insertCell (i j : Nat) (v : α) (cells : List (Nat × α)) :
    findCell j (insertCell i v cells) = if j = i then some v else findCell j cells := by
  induction cells with
  | nil => simp [insertCell, findCell]
  | cons c rest ih =>
    obtain ⟨k, u⟩ := c
    simp only [insertCell]
    split
    · simp [findCell]
    · split
      · rename_i h; subst h
        by_cases hj : j = i <;> simp [findCell, hj]
      · simp only [findCell, ih]
        by_cases hk : j = k
        · have : j ≠ i := by omega
          simp [hk]; intro h; omega
        · simp [hk]

theorem findCell_none_of_rising {lo j : Nat} : ∀ {cells : List (Nat × α)}, risingFrom lo cells → j < lo →
    findCell j cells = none
  | [], _, _ => rfl
  | (k, u) :: rest, h, hj => by
    simp only [risingFrom, Bool.and_eq_true, decide_eq_true_eq] at h
    have : j ≠ k := by omega
    simp only [findCell, this, if_false]
    exact findCell_none_of_rising h.2 (by omega)

/-- After index `i` is unlisted nothing is read there; any other read is as before. -/
theorem findCell_eraseCell (i j lo : Nat) (cells : List (Nat × α)) (h : risingFrom lo cells) :
    findCell j (eraseCell i cells) = if j = i then none else findCell j cells := by
  induction cells generalizing lo with
  | nil => simp [eraseCell, findCell]
  | cons c rest ih =>
    obtain ⟨k, u⟩ := c
    simp only [risingFrom, Bool.and_eq_true, decide_eq_true_eq] at h
    simp only [eraseCell]
    split
    · rename_i hik; subst hik
      by_cases hj : j = i
      · subst hj; simp [findCell_none_of_rising h.2]
      · simp [findCell, hj]
    · rename_i hik
      simp only [findCell, ih _ h.2]
      by_cases hj : j = k
      · subst hj; simp; omega
      · simp [hj]

theorem risingFrom_mono {lo lo' : Nat} (hl : lo' ≤ lo) : ∀ {cells : List (Nat × α)}, risingFrom lo cells →
    risingFrom lo' cells
  | [], _ => rfl
  | (k, u) :: rest, h => by
    simp only [risingFrom, Bool.and_eq_true, decide_eq_true_eq] at h ⊢
    exact ⟨by omega, h.2⟩

theorem risingFrom_insertCell {i lo : Nat} (v : α) : ∀ {cells : List (Nat × α)}, risingFrom lo cells → lo ≤ i →
    risingFrom lo (insertCell i v cells)
  | [], _, hi => by simp [insertCell, risingFrom, hi]
  | (k, u) :: rest, h, hi => by
    simp only [risingFrom, Bool.and_eq_true, decide_eq_true_eq] at h
    simp only [insertCell]
    split
    · simp [risingFrom, h.2, hi]; omega
    · split
      · rename_i h1; subst h1; simp [risingFrom, h.2, hi]
      · simp only [risingFrom, Bool.and_eq_true, decide_eq_true_eq]
        exact ⟨h.1, risingFrom_insertCell v h.2 (by omega)⟩

theorem risingFrom_eraseCell (i : Nat) {lo : Nat} : ∀ {cells : List (Nat × α)}, risingFrom lo cells →
    risingFrom lo (eraseCell i cells)
  | [], _ => rfl
  | (k, u) :: rest, h => by
    simp only [risingFrom, Bool.and_eq_true, decide_eq_true_eq] at h
    simp only [eraseCell]
    split
    · exact risingFrom_mono (by omega) h.2
    · simp only [risingFrom, Bool.and_eq_true, decide_eq_true_eq]
      exact ⟨h.1, risingFrom_eraseCell i h.2⟩

theorem all_insertCell (p : Nat × α → Bool) {i : Nat} {v : α} (hv : p (i, v)) : ∀ {cells : List (Nat × α)},
    cells.all p → (insertCell i v cells).all p
  | [], _ => by simp [insertCell, hv]
  | (k, u) :: rest, h => by
    simp only [List.all_cons, Bool.and_eq_true] at h
    simp only [insertCell]
    split
    · simp [hv, h.1, h.2, -List.all_eq_true]
    · split
      · simp [hv, h.2, -List.all_eq_true]
      · simp [h.1, all_insertCell p hv h.2, -List.all_eq_true]

theorem all_eraseCell (p : Nat × α → Bool) (i : Nat) : ∀ {cells : List (Nat × α)}, cells.all p →
    (eraseCell i cells).all p
  | [], _ => rfl
  | (k, u) :: rest, h => by
    simp only [List.all_cons, Bool.and_eq_true] at h
    simp only [eraseCell]
    split
    · exact h.2
    · simp [h.1, all_eraseCell p i h.2, -List.all_eq_true]

section Sizes
variable (m : Memory α) (i : Nat) (v : α)
@[simp] theorem Memory.put_size : (m.put i v).size = m.size := by unfold Memory.put; split <;> rfl
@[simp] theorem Memory.clear_size : (m.clear i).size = m.size := rfl
@[simp] theorem Memory.fresh_size (n : Nat) : (Memory.fresh n : Memory α).size = n := rfl
@[simp] theorem Memory.fresh_cells (n : Nat) : (Memory.fresh n : Memory α).cells = [] := rfl
end Sizes

@[simp] theorem writePixel_size (m : Memory Pixel) (i : Nat) (p : Pixel) : (writePixel m i p).size = m.size := by
  unfold writePixel; split <;> simp

@[simp] theorem writeByte_size (m : Memory Byte) (i : Nat) (v : Byte) : (writeByte m i v).size = m.size := by
  simp [writeByte]

/-- Read after write on `WIRE`: inside the memory, the value written; elsewhere nothing changes. -/
theorem readByte_writeByte (m : Memory Byte) (i j : Nat) (v : Byte) :
    readByte (writeByte m i v) j = if j = i ∧ j < m.size then some v else readByte m j := by
  unfold readByte writeByte Memory.cell? Memory.put
  by_cases hi : i < m.size
  · simp only [hi, if_true, findCell_insertCell]
    by_cases hj : j < m.size <;> simp [hj]
  · have : ¬ (j = i ∧ j < m.size) := by omega
    simp [hi, this]

/-- Read after write on `PIX`: inside the memory, the pixel written; elsewhere nothing changes. -/
theorem readPixel_writePixel (m : Memory Pixel) (h : pixWf m) (i j : Nat) (p : Pixel) :
    readPixel (writePixel m i p) j = if j = i ∧ j < m.size then p else readPixel m j := by
  simp only [pixWf, Memory.wf, Bool.and_eq_true] at h
  unfold readPixel writePixel Memory.cell?
  by_cases hp : p = Pixel.off
  · simp only [hp, if_true, Memory.clear, findCell_eraseCell i j 0 m.cells h.1]
    by_cases hj : j < m.size <;> simp [hj]
    by_cases he : j = i <;> simp [he]
  · simp only [hp, if_false, Memory.put]
    by_cases hi : i < m.size
    · simp only [hi, if_true, findCell_insertCell]
      by_cases hj : j < m.size <;> simp [hj]
      by_cases he : j = i <;> simp [he]
    · have : ¬ (j = i ∧ j < m.size) := by omega
      simp [hi, this]

/-- A fresh memory has nothing listed. -/
@[simp] theorem Memory.cell?_fresh (n i : Nat) : (Memory.fresh n : Memory α).cell? i = none := by
  simp [Memory.cell?, findCell]

@[simp] theorem readPixel_fresh (n i : Nat) : readPixel (Memory.fresh n) i = Pixel.off := by simp [readPixel]

@[simp] theorem readByte_fresh (n i : Nat) : readByte (Memory.fresh n) i = none := by simp [readByte]

theorem Memory.wf_fresh [DecidableEq α] (blank : Option α) (n : Nat) : (Memory.fresh n : Memory α).wf blank := by
  simp [Memory.wf, risingFrom]

theorem Memory.wf_put [DecidableEq α] {blank : Option α} {m : Memory α} {i : Nat} {v : α} (h : m.wf blank)
    (hv : some v ≠ blank) : (m.put i v).wf blank := by
  unfold Memory.put
  split
  · rename_i hi
    simp only [Memory.wf, Bool.and_eq_true] at h ⊢
    exact ⟨risingFrom_insertCell v h.1 (Nat.zero_le _), all_insertCell _ (by simp [hi, hv]) h.2⟩
  · exact h

theorem Memory.wf_clear [DecidableEq α] {blank : Option α} {m : Memory α} (i : Nat) (h : m.wf blank) :
    (m.clear i).wf blank := by
  simp only [Memory.wf, Memory.clear, Bool.and_eq_true] at h ⊢
  exact ⟨risingFrom_eraseCell i h.1, all_eraseCell _ i h.2⟩

/-- A write keeps `PIX` in canonical form. -/
theorem pixWf_writePixel {m : Memory Pixel} (h : pixWf m) (i : Nat) (p : Pixel) : pixWf (writePixel m i p) := by
  unfold writePixel
  split
  · exact Memory.wf_clear i h
  · rename_i hp; exact Memory.wf_put h (by simpa using hp)

/-- A write keeps `WIRE` in canonical form. -/
theorem wireWf_writeByte {m : Memory Byte} (h : wireWf m) (i : Nat) (v : Byte) : wireWf (writeByte m i v) :=
  Memory.wf_put h (by simp)

theorem pixWf_fresh (n : Nat) : pixWf (Memory.fresh n) := Memory.wf_fresh _ n

theorem wireWf_fresh (n : Nat) : wireWf (Memory.fresh n) := Memory.wf_fresh _ n

/-- In rising lists, the same reads mean the same list. -/
theorem cells_ext {lo : Nat} : ∀ {xs ys : List (Nat × α)}, risingFrom lo xs → risingFrom lo ys →
    (∀ i, findCell i xs = findCell i ys) → xs = ys
  | [], [], _, _, _ => rfl
  | [], (k, u) :: ys, _, _, h => by have := h k; simp [findCell] at this
  | (k, u) :: xs, [], _, _, h => by have := h k; simp [findCell] at this
  | (k, u) :: xs, (k', u') :: ys, hx, hy, h => by
    simp only [risingFrom, Bool.and_eq_true, decide_eq_true_eq] at hx hy
    have hk : k = k' := by
      rcases Nat.lt_trichotomy k k' with hlt | heq | hgt
      · have := h k
        have hne : k ≠ k' := by omega
        simp [findCell, hne, findCell_none_of_rising hy.2 (show k < k' + 1 by omega)] at this
      · exact heq
      · have := h k'
        have hne : k' ≠ k := by omega
        simp [findCell, hne, findCell_none_of_rising hx.2 (show k' < k + 1 by omega)] at this
    subst hk
    have hu : u = u' := by have := h k; simpa [findCell] using this
    subst hu
    have hrest : xs = ys := by
      refine cells_ext hx.2 hy.2 fun i => ?_
      by_cases hi : i = k
      · subst hi
        rw [findCell_none_of_rising hx.2 (by omega), findCell_none_of_rising hy.2 (by omega)]
      · have := h i; simpa [findCell, hi] using this
    rw [hrest]

theorem findCell_none_of_size {m : Memory α} {i : Nat} (h : m.cells.all fun c => decide (c.1 < m.size))
    (hi : m.size ≤ i) : findCell i m.cells = none := by
  have go : ∀ cells : List (Nat × α), (cells.all fun c => decide (c.1 < m.size)) → findCell i cells = none := by
    intro cells
    induction cells with
    | nil => intro _; rfl
    | cons c rest ih =>
      obtain ⟨k, u⟩ := c
      intro h
      simp only [List.all_cons, Bool.and_eq_true, decide_eq_true_eq] at h
      have : i ≠ k := by omega
      simp only [findCell, this, if_false]
      exact ih h.2
  exact go _ h

/-- The form is canonical: two wire buffers of one size that read alike are the same data. -/
theorem wire_ext {m m' : Memory Byte} (h : wireWf m) (h' : wireWf m') (hs : m.size = m'.size)
    (hr : ∀ i, readByte m i = readByte m' i) : m = m' := by
  simp only [wireWf, Memory.wf, Bool.and_eq_true] at h h'
  have hb := h.2; have hb' := h'.2
  have hc : m.cells = m'.cells := by
    refine cells_ext h.1 h'.1 fun i => ?_
    by_cases hi : i < m.size
    · have := hr i; simpa [readByte, Memory.cell?, hi, ← hs] using this
    · rw [findCell_none_of_size (by simpa using hb) (by omega), findCell_none_of_size (by simpa using hb') (by omega)]
  cases m; cases m'; simp_all

/-- The component of a pixel that wire byte `3i + c` carries: Green, Red, Blue (20_memory.md R55). -/
def wireComponent (p : Pixel) : Nat → Byte
  | 0 => p.g
  | 1 => p.r
  | _ => p.b

@[simp] theorem writeGroup_size (w : Memory Byte) (i : Nat) (p : Pixel) : (writeGroup w i p).size = w.size := by
  simp [writeGroup]

theorem readByte_writeGroup (w : Memory Byte) (i k : Nat) (p : Pixel) :
    readByte (writeGroup w i p) k =
      if k / 3 = i ∧ k < w.size then some (wireComponent p (k % 3)) else readByte w k := by
  simp only [writeGroup, readByte_writeByte, writeByte_size]
  by_cases hk : k < w.size
  · simp only [hk, and_true]
    by_cases hi : k / 3 = i
    · have hm : k % 3 = 0 ∨ k % 3 = 1 ∨ k % 3 = 2 := by omega
      rcases hm with hm | hm | hm
      · have h0 : k = 3 * i := by omega
        have h1 : k ≠ 3 * i + 1 := by omega
        have h2 : k ≠ 3 * i + 2 := by omega
        rw [if_neg h2, if_neg h1, if_pos h0, if_pos hi, hm]; rfl
      · have h1 : k = 3 * i + 1 := by omega
        have h2 : k ≠ 3 * i + 2 := by omega
        rw [if_neg h2, if_pos h1, if_pos hi, hm]; rfl
      · have h2 : k = 3 * i + 2 := by omega
        rw [if_pos h2, if_pos hi, hm]; rfl
    · have h0 : k ≠ 3 * i := by omega
      have h1 : k ≠ 3 * i + 1 := by omega
      have h2 : k ≠ 3 * i + 2 := by omega
      rw [if_neg h2, if_neg h1, if_neg h0, if_neg hi]
  · simp [hk]

@[simp] theorem serializePixels_size (pix : Memory Pixel) (w : Memory Byte) (n : Nat) :
    (serializePixels pix w n).size = w.size := by
  induction n with
  | zero => rfl
  | succ n ih => simp [serializePixels, ih]

/-- What FILL_BUFFER's loop leaves in every cell (40_strip_manager.md R108, 20_memory.md R55). -/
theorem readByte_serializePixels (pix : Memory Pixel) (w : Memory Byte) (n k : Nat) :
    readByte (serializePixels pix w n) k =
      if k / 3 < n ∧ k < w.size then some (wireComponent (readPixel pix (k / 3)) (k % 3)) else readByte w k := by
  induction n with
  | zero => simp [serializePixels]
  | succ n ih =>
    simp only [serializePixels, readByte_writeGroup, serializePixels_size, ih]
    by_cases hk : k < w.size
    · simp only [hk, and_true]
      by_cases h1 : k / 3 = n
      · subst h1; simp
      · by_cases h2 : k / 3 < n
        · simp [h1, h2, show k / 3 < n + 1 by omega]
        · simp [h1, h2, show ¬ k / 3 < n + 1 by omega]
    · simp [hk]

theorem wireWf_writeGroup {w : Memory Byte} (h : wireWf w) (i : Nat) (p : Pixel) : wireWf (writeGroup w i p) :=
  wireWf_writeByte (wireWf_writeByte (wireWf_writeByte h _ _) _ _) _ _

/-- FILL_BUFFER's loop keeps `WIRE` in canonical form. -/
theorem wireWf_serializePixels (pix : Memory Pixel) {w : Memory Byte} (h : wireWf w) (n : Nat) :
    wireWf (serializePixels pix w n) := by
  induction n with
  | zero => exact h
  | succ n ih => exact wireWf_writeGroup ih _ _

/-- Reading all values succeeds exactly when no cell is empty. -/
theorem allValues_eq_some {xs : List (Option α)} {ys : List α} : allValues xs = some ys ↔ xs = ys.map some := by
  induction xs generalizing ys with
  | nil => cases ys <;> simp [allValues]
  | cons x xs ih =>
    cases x with
    | none => cases ys <;> simp [allValues]
    | some v =>
      simp only [allValues]
      cases h : allValues xs with
      | none =>
        cases ys with
        | nil => simp
        | cons y ys =>
          simp only [List.map_cons, List.cons.injEq, Option.some.injEq, false_iff, not_and, reduceCtorEq]
          rintro - h2
          rw [ih.mpr h2] at h
          cases h
      | some vs =>
        have hv := ih.mp h
        cases ys with
        | nil => simp
        | cons y ys =>
          simp only [Option.some.injEq, List.cons.injEq, List.map_cons]
          subst hv
          constructor
          · rintro ⟨rfl, rfl⟩; exact ⟨rfl, rfl⟩
          · rintro ⟨rfl, h2⟩; exact ⟨rfl, List.map_injective_iff.mpr (Option.some_injective _) h2⟩

theorem wireBytes_length {w : Memory Byte} {bytes : List Byte} (h : wireBytes w = some bytes) :
    bytes.length = w.size := by
  have := congrArg List.length (allValues_eq_some.mp h)
  simpa using this.symm

/-- The bytes read are the cells' values in index order. -/
theorem wireBytes_getElem? {w : Memory Byte} {bytes : List Byte} (h : wireBytes w = some bytes) {k : Nat}
    (hk : k < w.size) : readByte w k = bytes[k]? := by
  have h1 := congrArg (fun l => l[k]?) (allValues_eq_some.mp h)
  simp only [List.getElem?_map, List.getElem?_range hk, Option.map_some] at h1
  cases hb : bytes[k]? with
  | none => rw [hb] at h1; simp at h1
  | some v => rw [hb] at h1; simpa using h1

/-- All cells written: the bytes can be read. -/
theorem wireBytes_isSome {w : Memory Byte} (h : ∀ k < w.size, (readByte w k).isSome) :
    ∃ bytes, wireBytes w = some bytes := by
  refine ⟨(List.range w.size).map fun k => (readByte w k).getD 0, allValues_eq_some.mpr ?_⟩
  rw [List.map_map]
  refine List.map_congr_left fun k hk => ?_
  obtain ⟨v, hv⟩ := Option.isSome_iff_exists.mp (h k (by simpa using hk))
  simp [hv]

/-- Some cell unwritten: they cannot. -/
theorem wireBytes_none {w : Memory Byte} {k : Nat} (hk : k < w.size) (h : readByte w k = none) :
    wireBytes w = none := by
  cases hb : wireBytes w with
  | none => rfl
  | some bytes =>
    have h1 := wireBytes_getElem? hb hk
    rw [h] at h1
    have h2 : k < bytes.length := by rw [wireBytes_length hb]; exact hk
    simp [List.getElem?_eq_getElem h2] at h1

end Sys2Proof.Machine
end

