-- ==== Sys2Proof/Laws/PerInstr.lean ====
section
/-! SUPPORT. The family TableRow: every instruction's word lies in its row of spec/opcode_table.json. -/

namespace Sys2Proof.Laws.TableRow

/-- The word of the instruction, masked by its row's mask, is the row's match value (30_encoding.md R73). -/
def Statement (i : Instr) : Prop := encode i &&& i.row.mask = i.row.pattern

/-- A field under a mask with no bit in the field's place gives nothing. -/
theorem fieldAt_and {n : Nat} (lo : Nat) (v : BitVec n) (m : CmdWord)
    (h : (BitVec.allOnes n).setWidth 64 <<< lo &&& m = 0) : fieldAt lo v &&& m = 0 := by
  apply BitVec.eq_of_getLsbD_eq
  intro i hi
  have h1 := congrArg (fun w => w.getLsbD i) h
  simp only [fieldAt, BitVec.getLsbD_and, BitVec.getLsbD_shiftLeft, BitVec.getLsbD_setWidth, BitVec.getLsbD_allOnes, hi,
    decide_true, Bool.true_and, BitVec.getLsbD_zero, BitVec.ofNat_eq_ofNat] at h1 ⊢
  by_cases h2 : i < lo
  · simp [h2]
  · by_cases h3 : i - lo < n
    · simp [h2, h3, show i - lo < 64 by omega] at h1 ⊢
      simp [h1]
    · simp [BitVec.getLsbD_of_ge v (i - lo) (by omega)]

/-- Masking goes field by field. -/
theorem toWord_and (f : Fields) (m : CmdWord) : f.toWord &&& m =
    (fieldAt 0 f.op &&& m) ||| (fieldAt 4 f.hv &&& m) ||| (fieldAt 5 f.dtype &&& m) ||| (fieldAt 8 f.maxc &&& m)
      ||| (fieldAt 16 f.len &&& m) ||| (fieldAt 32 f.r &&& m) ||| (fieldAt 40 f.g &&& m) ||| (fieldAt 48 f.b &&& m)
      ||| (fieldAt 56 f.reserved &&& m) := by
  apply BitVec.eq_of_getLsbD_eq
  intro i _
  simp only [Fields.toWord, BitVec.getLsbD_and, BitVec.getLsbD_or, Bool.and_or_distrib_right]

/-- A handle-only row: any HV bit lies outside the mask. -/
theorem handleRow (op : BitVec 4) (h : Handle) :
    ({ Fields.blank op with hv := h.bit } : Fields).toWord &&& 0xffffffffffffffef = fieldAt 0 op := by
  cases h <;> (revert op; decide)

theorem initStrip (h : Handle) : Statement (.initStrip h) := handleRow 0x0 h

theorem create (h : Handle) (dtype : DType) (len : BitVec 16) (maxc : Byte) : Statement (.create h dtype len maxc) := by
  simp only [Statement, encode, Instr.fields, Instr.row, toWord_and, Fields.blank]
  rw [fieldAt_and 4 _ _ (by decide), fieldAt_and 5 _ _ (by decide), fieldAt_and 8 _ _ (by decide),
    fieldAt_and 16 _ _ (by decide)]
  decide

theorem destroy (h : Handle) : Statement (.destroy h) := handleRow 0x2 h

theorem setPixel (h : Handle) (idx : BitVec 16) (r g b : Byte) : Statement (.setPixel h idx r g b) := by
  simp only [Statement, encode, Instr.fields, Instr.row, toWord_and, Fields.blank]
  rw [fieldAt_and 4 _ _ (by decide), fieldAt_and 16 _ _ (by decide), fieldAt_and 32 _ _ (by decide),
    fieldAt_and 40 _ _ (by decide), fieldAt_and 48 _ _ (by decide)]
  decide

theorem fillBuffer (h : Handle) : Statement (.fillBuffer h) := handleRow 0x4 h

theorem setTimings (dtype : DType) : Statement (.setTimings dtype) := by
  simp only [Statement, encode, Instr.fields, Instr.row, toWord_and, Fields.blank]
  rw [fieldAt_and 5 _ _ (by decide)]
  decide

theorem derivePulses (h : Handle) : Statement (.derivePulses h) := handleRow 0x6 h

theorem encode (h : Handle) : Statement (.encode h) := handleRow 0x7 h

theorem bind (h : Handle) (pin chan : Byte) : Statement (.bind h pin chan) := by
  simp only [Statement, Sys2Proof.encode, Instr.fields, Instr.row, toWord_and, Fields.blank]
  rw [fieldAt_and 4 _ _ (by decide), fieldAt_and 32 _ _ (by decide), fieldAt_and 40 _ _ (by decide)]
  decide

theorem transmit (h : Handle) : Statement (.transmit h) := handleRow 0x9 h

end Sys2Proof.Laws.TableRow
end

