-- ==== Sys2Proof/Laws/Pulses.lean ====
section
/-! SUPPORT. The laws of the serializer, the injector and the waveform: lengths, elements, soundness. -/

namespace Sys2Proof.Machine

@[simp] theorem byteBits_length (v : Byte) : (byteBits v).length = 8 := by simp [byteBits]

theorem byteBits_getElem? (v : Byte) {j : Nat} (hj : j < 8) : (byteBits v)[j]? = some (v.getLsbD (7 - j)) := by
  simp [byteBits, List.getElem?_range hj]

@[simp] theorem frameBits_nil : frameBits [] = [] := rfl

@[simp] theorem frameBits_cons (v : Byte) (bytes : List Byte) :
    frameBits (v :: bytes) = byteBits v ++ frameBits bytes := rfl

@[simp] theorem frameBits_length (bytes : List Byte) : (frameBits bytes).length = 8 * bytes.length := by
  induction bytes with
  | nil => rfl
  | cons v bytes ih => simp only [frameBits_cons, List.length_append, byteBits_length, ih, List.length_cons]; omega

/-- Bit `i` of the frame is bit `7 - i mod 8` of byte `i div 8` (20_memory.md R56). -/
theorem frameBits_getElem? (bytes : List Byte) (i : Nat) :
    (frameBits bytes)[i]? = bytes[i / 8]?.map fun v => v.getLsbD (7 - i % 8) := by
  induction bytes generalizing i with
  | nil => simp
  | cons v bytes ih =>
    rw [frameBits_cons, List.getElem?_append, byteBits_length]
    split
    · rename_i h
      rw [byteBits_getElem? v h, Nat.div_eq_of_lt h, Nat.mod_eq_of_lt h]; rfl
    · rename_i h
      rw [ih, show i / 8 = (i - 8) / 8 + 1 by omega, show i % 8 = (i - 8) % 8 by omega, List.getElem?_cons_succ]

@[simp] theorem serializeBytes_length (c : Canonical) (bytes : List Byte) :
    (serializeBytes c bytes).length = 8 * bytes.length := by simp [serializeBytes]

theorem serializeBytes_getElem? (c : Canonical) (bytes : List Byte) (i : Nat) :
    (serializeBytes c bytes)[i]? = bytes[i / 8]?.map fun v => bitPulse c (v.getLsbD (7 - i % 8)) := by
  simp [serializeBytes, frameBits_getElem?, Function.comp_def]

/-- The raw last bit is bit 0 of the last byte. -/
theorem lastBit_eq {bytes : List Byte} {v : Byte} (h : bytes[bytes.length - 1]? = some v) :
    lastBit bytes = v.getLsbD 0 := by
  simp [lastBit, List.getLast?_eq_getElem?, h]

@[simp] theorem injectReset_length (c : Canonical) (bytes : List Byte) (seq : List PulseDescriptor) :
    (injectReset c bytes seq).length = seq.length := by simp [injectReset]

@[simp] theorem frameOf_length (c : Canonical) (bytes : List Byte) : (frameOf c bytes).length = 8 * bytes.length := by
  simp [frameOf]

/-- The elements of a frame before its last: the bits' descriptors. -/
theorem frameOf_getElem?_lt (c : Canonical) (bytes : List Byte) {i : Nat} (hi : i < 8 * bytes.length - 1) :
    (frameOf c bytes)[i]? = bytes[i / 8]?.map fun v => bitPulse c (v.getLsbD (7 - i % 8)) := by
  rw [frameOf, injectReset, List.getElem?_set_ne (by omega), serializeBytes_getElem?]

/-- The last element of a frame: the reset variant of its bit. -/
theorem frameOf_getElem?_last (c : Canonical) (bytes : List Byte) (h : bytes ≠ []) :
    (frameOf c bytes)[8 * bytes.length - 1]? =
      bytes[bytes.length - 1]?.map fun v => resetPulse c (v.getLsbD 0) := by
  have hpos : 0 < bytes.length := List.length_pos_iff.mpr h
  have hv : bytes[bytes.length - 1]? = some (bytes[bytes.length - 1]'(by omega)) := List.getElem?_eq_getElem _
  rw [frameOf, injectReset, List.getElem?_set_self (by rw [serializeBytes_length]; omega), hv, lastBit_eq hv]
  rfl

/-- Every descriptor of a frame is one of the four canonical ones. -/
theorem mem_frameOf {c : Canonical} {bytes : List Byte} {pd : PulseDescriptor} (h : pd ∈ frameOf c bytes) :
    pd = c.pd0 ∨ pd = c.pd1 ∨ pd = c.pd0r ∨ pd = c.pd1r := by
  rcases List.mem_or_eq_of_mem_set h with h1 | h1
  · obtain ⟨b, -, rfl⟩ := List.mem_map.mp h1
    cases b <;> simp [bitPulse]
  · subst h1
    cases lastBit bytes <;> simp [resetPulse]

/-- Where the timing is representable, the four canonical descriptors are sound (41_protocol_encoder.md R137). -/
theorem canonical_sound {tick : Nat} {t : Timing} (h : representable tick t) :
    pulseSound (canonical tick t).pd0 ∧ pulseSound (canonical tick t).pd1 ∧ pulseSound (canonical tick t).pd0r ∧
      pulseSound (canonical tick t).pd1r := by
  simp only [representable, Bool.and_eq_true] at h
  obtain ⟨⟨⟨⟨h1, h2⟩, h3⟩, h4⟩, h5⟩ := h
  simp [pulseSound, canonical, pulse, h1, h2, h3, h4, h5]

theorem waveLength_append (xs ys : List (Level × Nat)) : waveLength (xs ++ ys) = waveLength xs + waveLength ys := by
  induction xs with
  | nil => simp [waveLength]
  | cons x xs ih => obtain ⟨l, d⟩ := x; simp only [List.cons_append, waveLength, ih]; omega

/-- Before its first descriptor the line is low (42_transmitter.md R184). -/
@[simp] theorem lineLevel_of_neg (w : List (Level × Nat)) {t : Int} (h : t < 0) : lineLevel w t = .low := if_pos h

/-- From its first descriptor on the line is at the waveform's level. -/
@[simp] theorem lineLevel_natCast (w : List (Level × Nat)) (t : Nat) : lineLevel w (t : Int) = levelAt w t :=
  if_neg (Int.not_lt.mpr (Int.natCast_nonneg t))

theorem waveLength_pulseWave (tick : Nat) (pd : PulseDescriptor) :
    waveLength (pulseWave tick pd) = tick * (pd.duration0 + pd.duration1) := by
  simp [pulseWave, waveLength]; ring

end Sys2Proof.Machine
end

