-- ==== Sys2Proof/Tests/Slice0.lean ====
section
/-! SUPPORT. The model's own tests: expected values are copied from spec/30_encoding.md section 6 and spec/95_test_vectors.md (the vector is named in each comment), and for every statement with hypotheses a state that meets them all together. -/

namespace Sys2Proof.Tests

open Sys2Proof Sys2Proof.Machine

/-! ## Which written lines have an encoding (30_encoding.md R86, R87) -/

theorem test_wellformed_line : (AsmLine.create .strip (.named .ws2812) 65535 255).wellFormed = true := by decide
theorem test_illformed_length : (AsmLine.create .strip (.named .ws2812) 65536 255).wellFormed = false := by decide
theorem test_illformed_ceiling : (AsmLine.create .strip (.named .ws2812) 1 256).wellFormed = false := by decide
theorem test_illformed_device_code : (AsmLine.create .strip (.code 8) 1 0).wellFormed = false := by decide
theorem test_illformed_timings_code : (AsmLine.setTimings (.code 8)).wellFormed = false := by decide
theorem test_illformed_index : (AsmLine.setPixel .strip 65536 0 0 0).wellFormed = false := by decide
theorem test_illformed_red : (AsmLine.setPixel .strip 0 256 0 0).wellFormed = false := by decide
theorem test_illformed_green : (AsmLine.setPixel .strip 0 0 256 0).wellFormed = false := by decide
theorem test_illformed_blue : (AsmLine.setPixel .strip 0 0 0 256).wellFormed = false := by decide
theorem test_illformed_pin : (AsmLine.bind .strip 256 0).wellFormed = false := by decide
theorem test_illformed_channel : (AsmLine.bind .strip 0 256).wellFormed = false := by decide

/-! ## Words from 30_encoding.md section 6 and 95_test_vectors.md section 3.1 -/

theorem test_decode_initialize : decode 0x0000000000000010 = .ok (.initStrip .strip) := by decide
theorem test_decode_initialize_null : decode 0x0000000000000000 = .ok (.initStrip .null) := by decide
theorem test_decode_create : decode 0x00000000000A2051 = .ok (.create .strip (.known .ws2812b) 10 32) := by decide
theorem test_decode_create_most : decode 0x00000000FFFF0091 = .ok (.create .strip (.known .ws2813) 65535 0) := by decide
theorem test_decode_create_ws2815 : decode 0x00000000000101B1 = .ok (.create .strip (.known .ws2815) 1 1) := by decide
theorem test_decode_create_code_seven : decode 0x00000000000500F1 = .ok (.create .strip .unrecognized 5 0) := by decide
theorem test_decode_destroy : decode 0x0000000000000012 = .ok (.destroy .strip) := by decide
theorem test_decode_set_pixel : decode 0x00FF800100000013 = .ok (.setPixel .strip 0 0x01 0x80 0xFF) := by decide
theorem test_decode_set_pixel_index : decode 0x0003020100020013 = .ok (.setPixel .strip 2 1 2 3) := by decide
theorem test_decode_fill_buffer : decode 0x0000000000000004 = .ok (.fillBuffer .null) := by decide
theorem test_decode_set_timings : decode 0x0000000000000065 = .ok (.setTimings (.known .ws2812d)) := by decide
theorem test_decode_set_timings_code_seven : decode 0x00000000000000E5 = .ok (.setTimings .unrecognized) := by decide
theorem test_decode_derive_pulses : decode 0x0000000000000016 = .ok (.derivePulses .strip) := by decide
theorem test_decode_encode : decode 0x0000000000000017 = .ok (.encode .strip) := by decide
theorem test_decode_bind : decode 0x0000001200000018 = .ok (.bind .strip 18 0) := by decide
theorem test_decode_bind_channel : decode 0x0000010500000018 = .ok (.bind .strip 5 1) := by decide
theorem test_decode_transmit : decode 0x0000000000000019 = .ok (.transmit .strip) := by decide

theorem test_refuse_opcode_a : decode 0x000000000000000A = .error .reservedOpcode := by decide
theorem test_refuse_opcode_before_unused : decode 0xFFFFFFFFFFFFFFFF = .error .reservedOpcode := by decide
theorem test_refuse_top_byte : decode 0x0100000000000017 = .error .nonzeroUnused := by decide
theorem test_refuse_dtype_bit : decode 0x0000000000000037 = .error .nonzeroUnused := by decide
theorem test_refuse_timings_handle : decode 0x0000000000000015 = .error .nonzeroUnused := by decide
theorem test_refuse_create_bit : decode 0x0000000100000011 = .error .nonzeroUnused := by decide
theorem test_refuse_ceiling_bit : decode 0x0000000000000110 = .error .nonzeroUnused := by decide
theorem test_refuse_bind_length_bit : decode 0x0000000000010018 = .error .nonzeroUnused := by decide
theorem test_refuse_bind_blue_bit : decode 0x0001000000000018 = .error .nonzeroUnused := by decide
theorem test_refuse_pixel_dtype_bit : decode 0x0000000000000033 = .error .nonzeroUnused := by decide

/-! ## Lines of text (30_encoding.md sections 5 and 6) -/

theorem test_text_create : assembleText "CREATE h, WS2812B, 10, 32" = some [0x00000000000A2051] := by decide
theorem test_text_create_code : assembleText "CREATE h, #7, 5, 0" = some [0x00000000000500F1] := by decide
theorem test_text_set_pixel : assembleText "SET_PIXEL h, 1, 0xFF, 0x00, 0xA5" = some [0x00A500FF00010013] := by decide
theorem test_text_bind : assembleText "BIND h, 5, 1" = some [0x0000010500000018] := by decide
theorem test_text_destroy_null : assembleText "DESTROY null" = some [0x0000000000000002] := by decide
theorem test_text_set_timings : assembleText "SET_TIMINGS WS281X" = some [0x00000000000000C5] := by decide
theorem test_text_show : assembleText "SHOW h" = some [0x14, 0x17, 0x19] := by decide
theorem test_text_too_long_strip : assembleText "CREATE h, WS2812, 65536, 0" = none := by decide
theorem test_text_no_such_mnemonic : assembleText "PAINT h" = none := by decide

/-! ## Small states: a WS2812 strip of one LED, pixel (10, 20, 30), at 50 ns a tick -/

def noDraws : Oracles := { alloc := [], periph := [], leading := [], asked := [] }

/-- The reset state at 50 ns a tick and divider 4, with the oracles' answers fixed. -/
def start (o : Oracles) : State := { State.reset with oracles := o, params := ⟨50, 4⟩ }

def onePixel : Memory Pixel := ⟨1, [(0, ⟨10, 20, 30⟩)]⟩

/-- The wire buffer of vector S6: `[20, 10, 30]`. -/
def oneWire : Memory Byte := ⟨3, [(0, 20), (1, 10), (2, 30)]⟩

/-- The frame of vector S7: `00010100 00001010 0001111r0`, with the WS2812 descriptors at 50 ns. -/
def oneFrame : List PulseDescriptor :=
  ([false, false, false, true, false, true, false, false, false, false, false, false, true, false, true, false,
    false, false, false, true, true, true, true].map
      fun b => if b then ⟨.high, 14, .low, 12⟩ else ⟨.high, 7, .low, 16⟩) ++ [⟨.high, 7, .low, 1000⟩]

/-- A Created strip of that shape. -/
def oneLed (wire : Memory Byte) (tx : Option (List PulseDescriptor)) (bound : Option (Byte × Byte)) : Ctx where
  lifecycle  := .created
  deviceType := .ws2812
  length     := 1
  maxc       := 255
  timing     := ⟨350, 800, 700, 600, 50000⟩
  pixels     := some onePixel
  wire       := some wire
  txbuf      := tx
  bound      := bound

def strip (wire : Memory Byte) (tx : Option (List PulseDescriptor)) (bound : Option (Byte × Byte)) (o : Oracles) : State :=
  { start o with ctx := oneLed wire tx bound }

/-- Created, nothing filled yet. -/
def made (o : Oracles) : State := strip (Memory.fresh 3) none none o

/-- Created and filled. -/
def filled (o : Oracles) : State := strip oneWire none none o

/-- Created, filled, encoded, bound to pin 5 and channel 1. -/
def ready (o : Oracles) : State := strip oneWire (some oneFrame) (some (5, 1)) o

/-- Destroyed, with a pin and a channel still bound. -/
def gone : State :=
  { start noDraws with ctx := { Ctx.reset with lifecycle := .destroyed, bound := some (5, 1) } }

/-- Something of the next state, or none where a command stops. -/
def after {β : Type} (a : Answer) (f : State → β) : Option β :=
  match a with
  | .next t => some (f t)
  | .fault _ => none
  | .refused _ => none

/-- The fault of a command, or none. -/
def faultOf (a : Answer) : Option Fault :=
  match a with
  | .next _ => none
  | .fault f => some f
  | .refused _ => none

def grants : Oracles := { noDraws with alloc := [.ok, .ok] }
def calls : Oracles := { noDraws with periph := [.ok, .ok, .ok, .ok, .ok] }

/-! ## One step of each command -/

/-- Vectors M1 and M3. -/
theorem test_initialize_at_reset :
    after (exec (.initStrip .strip) (start noDraws)) (fun t => (t.ctx, t.results)) = some (Ctx.reset, [.ok]) := by decide
theorem test_initialize_created_faults : faultOf (exec (.initStrip .strip) (made noDraws)) = some .lifecycle := by decide

/-- Vector M12. -/
theorem test_create : after (exec (.create .strip (.known .ws2812b) 10 32) (start grants))
    (fun t => (t.ctx, t.results)) =
    some (⟨.created, .ws2812b, 10, 32, ⟨300, 1090, 1090, 320, 280000⟩, some ⟨10, []⟩, some ⟨30, []⟩, none, none⟩, [.ok]) := by
  decide
/-- Vector M11. -/
theorem test_create_second_fails : after (exec (.create .strip (.known .ws2812b) 10 32)
    (start { noDraws with alloc := [.ok, .fail] })) (fun t => (t.ctx, t.results)) =
    some (Ctx.reset, [.outOfMemory .wire]) := by decide

/-- Vector M16: the null state, BOUND kept. -/
theorem test_destroy : after (exec (.destroy .strip) (ready noDraws)) (fun t => (t.ctx, t.results)) =
    some (gone.ctx, [.ok]) := by decide
theorem test_destroy_at_reset : after (exec (.destroy .strip) (start noDraws)) (fun t => (t.ctx, t.results)) =
    some (Ctx.reset, [.ok]) := by decide

/-- Vectors M21 (no clamping) and M22, on one LED. -/
theorem test_set_pixel : after (exec (.setPixel .strip 0 255 1 2) (made noDraws)) (fun t => (t.ctx.pixels, t.results)) =
    some (some ⟨1, [(0, ⟨255, 1, 2⟩)]⟩, [.ok]) := by decide
theorem test_set_pixel_past_end : faultOf (exec (.setPixel .strip 1 1 1 1) (made noDraws)) = some .pixel := by decide

/-- Vectors M25 and M27. -/
theorem test_fill_buffer : after (exec (.fillBuffer .strip) (made noDraws)) (fun t => (t.ctx.wire, t.results)) =
    some (some oneWire, [.ok]) := by decide
theorem test_fill_buffer_at_reset : after (exec (.fillBuffer .strip) (start noDraws)) (fun t => (t.ctx, t.results)) =
    some (Ctx.reset, [.invalidArgument .state]) := by decide

/-- Vectors T1d and T1h. -/
theorem test_set_timings : after (exec (.setTimings (.known .ws2812d)) (start noDraws)) (fun t => t.results) =
    some [.okTiming ⟨400, 850, 800, 450, 50000⟩] := by decide
theorem test_set_timings_code_seven : after (exec (.setTimings .unrecognized) (start noDraws)) (fun t => t.results) =
    some [.invalidArgument .deviceType] := by decide

/-- Vectors D1 and D5. -/
theorem test_derive_pulses : after (exec (.derivePulses .strip) (made noDraws)) (fun t => t.results) =
    some [.okPulses ⟨⟨.high, 7, .low, 16⟩, ⟨.high, 14, .low, 12⟩, ⟨.high, 7, .low, 1000⟩, ⟨.high, 14, .low, 1000⟩⟩] := by
  decide
theorem test_derive_pulses_at_reset : after (exec (.derivePulses .strip) (start noDraws)) (fun t => t.results) =
    some [.okPulses ⟨⟨.high, 0, .low, 0⟩, ⟨.high, 0, .low, 0⟩, ⟨.high, 0, .low, 0⟩, ⟨.high, 0, .low, 0⟩⟩] := by decide

/-- Vectors S7 and E-9. -/
theorem test_encode : after (exec (.encode .strip) (filled grants)) (fun t => (t.ctx.txbuf, t.results)) =
    some (some oneFrame, [.ok]) := by decide
theorem test_encode_unwritten : faultOf (exec (.encode .strip) (made grants)) = some .unwritten := by decide

/-- Vectors B1 and B4. -/
theorem test_bind : after (exec (.bind .strip 18 0) (start calls)) (fun t => (t.ctx.bound, t.results)) =
    some (some (18, 0), [.ok]) := by decide
theorem test_bind_third_call_fails : after (exec (.bind .strip 5 1)
    { ready noDraws with oracles := { noDraws with periph := [.ok, .ok, .err 0x103] } })
    (fun t => (t.ctx.bound, t.results)) = some (none, [.peripheralError .setClockDivider 0x103]) := by decide

/-- Vectors X5 and X6. -/
theorem test_transmit : after (exec (.transmit .strip) (ready calls)) (fun t => (t.trace, t.ctx.txbuf, t.results)) =
    some ([.emitted 1 oneFrame], none, [.ok]) := by decide
theorem test_transmit_fails : after (exec (.transmit .strip)
    (ready { noDraws with periph := [.err 0x107], leading := [10] })) (fun t => (t.trace, t.ctx.txbuf, t.results)) =
    some ([.emittedPartial 1 (oneFrame.take 10) 0x107], none, [.peripheralError .write 0x107]) := by decide

/-! ## The wire (95_test_vectors.md sections 1 and 3.6, 30_encoding.md R82) -/

/-- The packed WS2812B words of section 1. -/
theorem test_pack_zero_bit : packPulse ⟨.high, 6, .low, 21⟩ = some 0x00158006 := by decide
theorem test_pack_reset_bit : packPulse ⟨.high, 21, .low, 5600⟩ = some 0x15E08015 := by decide
theorem test_unpack : unpackPulse 0x03E8800E = ⟨.high, 14, .low, 1000⟩ := by decide

/-- Vector S7's frame has 8 ones and 15 zeros before its last descriptor, so by section 3.5's sum it lasts
8 x 26 + 15 x 23 + 7 + 1000 = 1560 ticks, 78000 ns. -/
theorem test_wire_time : wireTime 50 oneFrame = 78000 := by decide
theorem test_line_low_after_frame : levelAt (wave 50 oneFrame) 78000 = .low := by decide

/-! ## Witnesses: for each statement with hypotheses, a state and operands that meet them all together, at the ends of the
ranges the statement names -/

/-- The invariant of the one-LED strip, whatever wire buffer of three cells, frame of 24 descriptors and binding it holds. -/
theorem oneLed_inv (wire : Memory Byte) (tx : Option (List PulseDescriptor)) (bound : Option (Byte × Byte))
    (size : wire.size = 3) (form : wireWf wire) (len : ∀ seq, tx = some seq → seq.length = 24) :
    (oneLed wire tx bound).Inv where
  createdIff := by simp [oneLed]
  together := rfl
  realType := by simp [oneLed]
  someLed := by simp [oneLed]
  pixSize := by rintro m h; cases h; rfl
  wireSize := by rintro m h; cases h; exact size
  nullIff := ⟨fun h => absurd rfl h, fun h => absurd (congrArg Ctx.pixels h) (by simp [Ctx.null, oneLed])⟩
  txSize := fun seq h => ⟨rfl, len seq h⟩
  timingRow := rfl
  pixForm := by rintro m h; cases h; decide
  wireForm := by rintro m h; cases h; exact form

theorem made_inv (o : Oracles) : (made o).Inv := ⟨oneLed_inv _ _ _ rfl (by decide) (by simp), (by decide : 1 ≤ 50)⟩
theorem filled_inv (o : Oracles) : (filled o).Inv := ⟨oneLed_inv _ _ _ rfl (by decide) (by simp), (by decide : 1 ≤ 50)⟩
theorem ready_inv (o : Oracles) : (ready o).Inv :=
  ⟨oneLed_inv _ _ _ rfl (by decide) (by rintro seq h; cases h; decide), (by decide : 1 ≤ 50)⟩

/-- The null state meets the invariant, Uninitialized and Destroyed alike. -/
theorem null_inv (l : Lifecycle) (hl : l ≠ .created) (bound : Option (Byte × Byte)) :
    ({ Ctx.reset with lifecycle := l, bound := bound } : Ctx).Inv := by
  constructor <;> simp [Ctx.reset, Ctx.isNull, Ctx.null, hl, timingOf]; rfl

theorem start_inv (o : Oracles) : (start o).Inv := ⟨null_inv .uninitialized (by decide) none, (by decide : 1 ≤ 50)⟩
theorem gone_inv : gone.Inv := ⟨null_inv .destroyed (by decide) (some (5, 1)), (by decide : 1 ≤ 50)⟩

theorem ready_signal (o : Oracles) : (ready o).SignalSound where
  encoded := by
    rintro seq h; cases h
    exact (by decide : oneFrame.all pulseSound = true ∧ endsInReset 50 ⟨350, 800, 700, 600, 50000⟩ oneFrame = true)
  sent := by simp [ready, strip, start, State.reset]
  latched := by simp [ready, strip, start, State.reset]

theorem oneWire_written : (oneLed oneWire none none).allWritten := by
  rintro m h; cases h; decide

theorem witness_EncodeOfDecode : decode 0x00FF800100000013 = .ok (.setPixel .strip 0 0x01 0x80 0xFF) := by decide
theorem witness_DecoderVerdicts : decode 0xA = .error .reservedOpcode ∧ decode 0xF = .error .reservedOpcode ∧
    decode 0x20 = .error .nonzeroUnused ∧ decode 0x29 = .error .nonzeroUnused ∧ decode 0 = .ok (.initStrip .null) ∧
    decode 0x19 = .ok (.transmit .strip) := by decide
theorem witness_OpcodeRowsDisjoint : (Instr.encode .strip).row ∈ opcodeRows ∧
    (Instr.encode .strip).row.admits 0x17 = true := by decide
theorem witness_AssembledOperandsExact :
    assemble (.create .strip (.named .ws2813) 65535 0) = some [0xFFFF0091] ∧
    assemble (.create .strip (.named .ws2812) 65536 255) = none ∧ assemble (.create .strip (.named .ws2812) 1 256) = none ∧
    assemble (.setPixel .strip 65535 255 255 255) = some [0x00FFFFFFFFFF0013] ∧
    assemble (.setPixel .strip 65536 0 0 0) = none ∧ assemble (.setPixel .strip 0 256 0 0) = none ∧
    assemble (.bind .strip 255 255) = some [0x0000FFFF00000018] ∧ assemble (.bind .strip 256 0) = none ∧
    assemble (.bind .strip 0 256) = none := by decide

/-- The made strip with one pending word. -/
def pending (w : CmdWord) : State := { made noDraws with commands := [w] }

theorem witness_StepRunsDecodedCommand : (pending 0x14).faultMark = none ∧ (pending 0x14).refusalMark = none ∧
    (pending 0x14).commands = [0x14] ∧ decode 0x14 = .ok (.fillBuffer .strip) := by decide
theorem witness_UndecodableWordRefused : (pending 0x1A).faultMark = none ∧ (pending 0x1A).refusalMark = none ∧
    (pending 0x1A).commands = [0x1A] ∧ decode 0x1A = .error .reservedOpcode ∧ (pending 0x15).commands = [0x15] ∧
    decode 0x15 = .error .nonzeroUnused := by decide
theorem witness_FaultSetsItsMark : (pending 0x10).faultMark = none ∧ (pending 0x10).refusalMark = none ∧
    (pending 0x10).commands = [0x10] ∧ decode 0x10 = .ok (.initStrip .strip) ∧
    exec (.initStrip .strip) { pending 0x10 with commands := [] } = .fault .lifecycle := ⟨rfl, rfl, rfl, by decide, rfl⟩
theorem witness_EndedRunIsFinal : ({ pending 0x14 with faultMark := some .pixel } : State).unmarked = false ∧
    ({ pending 0x14 with refusalMark := some .nonzeroUnused } : State).unmarked = false := by decide
theorem witness_IdleKeepsState : (made noDraws).faultMark = none ∧ (made noDraws).refusalMark = none ∧
    (made noDraws).commands = [] := by decide
theorem witness_PlacedWordRunsNext : decodeTableWord 64 0x17 = some (.encode .strip) ∧
    decodeTableWord 64 (2 ^ 64 - 1) = none ∧ decodeTableWord 72 (2 ^ 64) = none := by decide

theorem witness_StepKeepsInv : ({ ready calls with commands := [0x19] } : State).Inv ∧
    step { ready calls with commands := [0x19] } = exec (.transmit .strip) (ready calls) ∧
    (after (exec (.transmit .strip) (ready calls)) fun t => t.trace) = some [.emitted 1 oneFrame] :=
  ⟨⟨(ready_inv calls).ctx, by decide⟩, rfl, by decide⟩
theorem witness_StepKeepsSignalSound : (ready calls).Inv ∧ (ready calls).SignalSound ∧ step (ready calls) = .next (ready calls) :=
  ⟨ready_inv _, ready_signal _, rfl⟩
theorem witness_ReachableStatesSound : (advanceBy 2 (State.start [0x10, 0xA2051] grants ⟨50, 4⟩)).Reachable ∧
    (advanceBy 2 (State.start [0x10, 0xA2051] grants ⟨50, 4⟩)).ctx.lifecycle = .created :=
  ⟨⟨_, _, _, 2, by decide, rfl⟩, by decide⟩
/-- Every field is changed by some command the statement names. -/
theorem witness_FieldsChangedOnlyByTheirWriters : (start grants).Inv ∧ (made noDraws).Inv ∧ (ready calls).Inv ∧
    (after (exec (.create .strip (.known .ws2812) 1 255) (start grants))
      fun t => (t.ctx.lifecycle, t.ctx.deviceType, t.ctx.length, t.ctx.maxc)) = some (.created, .ws2812, 1, 255) ∧
    (after (exec (.fillBuffer .strip) (made noDraws)) fun t => t.ctx.wire) = some (some oneWire) ∧
    (after (exec (.transmit .strip) (ready calls)) fun t => (t.ctx.txbuf, t.trace)) = some (none, [.emitted 1 oneFrame]) :=
  ⟨start_inv _, made_inv _, ready_inv _, by decide, by decide, by decide⟩
theorem witness_LifecycleMoves :
    (after (exec (.create .strip (.known .ws2812) 1 255) (start grants)) fun t => t.ctx.lifecycle) = some .created ∧
    (after (exec (.destroy .strip) (made noDraws)) fun t => t.ctx.lifecycle) = some .destroyed ∧
    gone.ctx.lifecycle = .destroyed := by decide
theorem witness_ErrorsLeaveNoPartialState : (ready noDraws).Inv ∧ (start noDraws).Inv ∧
    (after (exec (.bind .null 5 1) (ready noDraws)) fun t => t.results) = some [.invalidArgument .handle] ∧
    (after (exec (.encode .strip) (ready { noDraws with alloc := [.fail] })) fun t => t.results) = some [.outOfMemory .tx] ∧
    (after (exec (.bind .strip 5 1) (ready { noDraws with periph := [.err 1] })) fun t => t.results) =
      some [.peripheralError .stopChannel 1] ∧
    (after (exec (.transmit .strip) (start noDraws)) fun t => t.results) = some [.invalidArgument .state] ∧
    (after (exec (.transmit .strip) (ready { noDraws with periph := [.err 5], leading := [0] })) fun t => t.results) =
      some [.peripheralError .write 5] ∧
    (after (exec (.create .strip (.known .ws2812) 0 255) (start noDraws)) fun t => t.results) = some [.invalidSize .length] :=
  ⟨ready_inv _, start_inv _, by decide, by decide, by decide, by decide, by decide, by decide⟩

theorem witness_LifecycleFaults : (made noDraws).ctx.lifecycle = .created ∧ gone.ctx.lifecycle ≠ .uninitialized := by decide
theorem witness_NotCreatedIsStateError : (start noDraws).ctx.lifecycle ≠ .created ∧ gone.ctx.lifecycle ≠ .created ∧
    (start noDraws).Inv ∧ gone.Inv := ⟨by decide, by decide, start_inv _, gone_inv⟩
theorem witness_InitStripCompletes : (start noDraws).ctx.lifecycle ≠ .created ∧ (start noDraws).Inv ∧
    gone.ctx.lifecycle ≠ .created ∧ gone.Inv := ⟨by decide, start_inv _, by decide, gone_inv⟩
theorem witness_CreateArgumentErrors : (start noDraws).ctx.lifecycle = .uninitialized ∧ DeviceType.ws2812 ≠ .none := by decide
theorem witness_CreateCompletes : (start grants).ctx.lifecycle = .uninitialized ∧ DeviceType.ws281x ≠ .none ∧
    (1 : BitVec 16) ≠ 0 ∧ (65535 : BitVec 16) ≠ 0 ∧ (start grants).oracles.alloc = [.ok, .ok] := by decide
theorem witness_CreateOutOfMemory : (start noDraws).ctx.lifecycle = .uninitialized ∧ DeviceType.ws2812 ≠ .none ∧
    (1 : BitVec 16) ≠ 0 ∧ (start { noDraws with alloc := [.fail] }).oracles.alloc = [.fail] ∧
    (start { noDraws with alloc := [.ok, .fail] }).oracles.alloc = [.ok, .fail] := by decide
theorem witness_CreateUnderEveryAnswer : (start noDraws).ctx.lifecycle = .uninitialized ∧ DeviceType.ws2815 ≠ .none ∧
    (65535 : BitVec 16) ≠ 0 := by decide
theorem witness_DestroyCompletes : (made noDraws).ctx.lifecycle = .created ∧ gone.ctx.lifecycle ≠ .created ∧
    (start noDraws).ctx.lifecycle ≠ .created := by decide
/-- The last index of the strip. -/
theorem witness_SetPixelCompletes : (made noDraws).Inv ∧ (made noDraws).ctx.pixels = some onePixel ∧
    (0 : BitVec 16).toNat < (made noDraws).ctx.length.toNat := ⟨made_inv _, rfl, by decide⟩
/-- The first index past the strip, and a strip that is not Created. -/
theorem witness_SetPixelFaults : (made noDraws).ctx.length.toNat ≤ (1 : BitVec 16).toNat ∧
    (start noDraws).ctx.lifecycle ≠ .created := by decide
theorem witness_FillBufferCompletes : (made noDraws).Inv ∧ (made noDraws).ctx.pixels = some onePixel ∧
    (made noDraws).ctx.wire = some (Memory.fresh 3) := ⟨made_inv _, rfl, rfl⟩
theorem witness_FillBufferIsIdempotent : (made noDraws).Inv ∧ (made noDraws).ctx.lifecycle = .created ∧
    exec (.fillBuffer .strip) (made noDraws) = .next { filled noDraws with results := [.ok] } ∧
    (ready noDraws).ctx.lifecycle = .created ∧ (ready noDraws).ctx.length = (filled noDraws).ctx.length ∧
    (ready noDraws).ctx.pixels = (filled noDraws).ctx.pixels ∧ (ready noDraws).ctx.wire = (filled noDraws).ctx.wire :=
  ⟨made_inv _, rfl, rfl, rfl, rfl, rfl, rfl⟩

/-- The filled strip at another tick. -/
def filledAt (tick : Nat) : State := { filled grants with params := ⟨tick, 4⟩ }

/-- Vectors D10 to D23: the ends of each range, and the ticks just outside. -/
theorem witness_RepresentableTickRanges :
    [1, 2, 350, 351].map (fun k => representable k (timingOf .ws2812)) = [false, true, true, false] ∧
    [8, 9, 300, 301].map (fun k => representable k (timingOf .ws2812b)) = [false, true, true, false] ∧
    [1, 2, 400, 401].map (fun k => representable k (timingOf .ws281x)) = [false, true, true, false] ∧
    (filledAt 1).Inv ∧ (filledAt 1).ctx.lifecycle = .created ∧ (filledAt 1).ctx.allWritten ∧
    ¬ ((tickRange (filledAt 1).ctx.deviceType).1 ≤ (filledAt 1).params.tickNs ∧
      (filledAt 1).params.tickNs ≤ (tickRange (filledAt 1).ctx.deviceType).2) :=
  ⟨by decide, by decide, by decide, ⟨(filled_inv grants).ctx, by decide⟩, rfl, oneWire_written, by decide⟩
theorem witness_EncodeCompletes : (filled grants).ctx.lifecycle = .created ∧ (filled grants).ctx.wire = some oneWire ∧
    oneWire.size ≠ 0 ∧ representable (filled grants).params.tickNs (filled grants).ctx.timing = true ∧
    (∀ k, k < oneWire.size → (readByte oneWire k).isSome) ∧ (filled grants).oracles.alloc = [.ok, .ok] := by decide
/-- An empty buffer; a tick of 351 ns; the made strip's unwritten cells. -/
theorem witness_EncodeChecksInOrder : (strip (Memory.fresh 0) none none noDraws).ctx.lifecycle = .created ∧
    (Memory.fresh 0 : Memory Byte).size = 0 ∧ oneWire.size ≠ 0 ∧
    representable (filledAt 351).params.tickNs (filledAt 351).ctx.timing = false ∧
    representable (made noDraws).params.tickNs (made noDraws).ctx.timing = true ∧
    (made noDraws).ctx.wire = some (Memory.fresh 3) ∧ 2 < (Memory.fresh 3 : Memory Byte).size ∧
    readByte (Memory.fresh 3) 2 = none := by decide
theorem witness_EncodeOutOfMemory : (ready { noDraws with alloc := [.fail] }).ctx.lifecycle = .created ∧
    (ready { noDraws with alloc := [.fail] }).ctx.wire = some oneWire ∧ oneWire.size ≠ 0 ∧
    representable 50 (ready { noDraws with alloc := [.fail] }).ctx.timing = true ∧
    (∀ k, k < oneWire.size → (readByte oneWire k).isSome) ∧
    (ready { noDraws with alloc := [.fail] }).oracles.alloc = [.fail] := by decide
theorem witness_EncodeUnderEveryAnswer : (filled noDraws).Inv ∧ (filled noDraws).ctx.lifecycle = .created ∧
    (filled noDraws).ctx.allWritten ∧ representable (filled noDraws).params.tickNs (filled noDraws).ctx.timing = true :=
  ⟨filled_inv _, rfl, oneWire_written, by decide⟩
/-- Two states that differ in the pixels, the ceiling and the binding. -/
theorem witness_EncodeReadsWireAndTimingOnly :
    ({ oneLed oneWire none none with pixels := none, maxc := 0, bound := some (5, 1) } : Ctx).lifecycle = .created ∧
    ({ oneLed oneWire none none with pixels := none, maxc := 0, bound := some (5, 1) } : Ctx).wire =
      (filled grants).ctx.wire ∧
    ({ oneLed oneWire none none with pixels := none, maxc := 0, bound := some (5, 1) } : Ctx).timing =
      (filled grants).ctx.timing := by decide
/-- An odd and an even last byte (vectors E-5 and E-6), and the lowest tick of WS2812. -/
theorem witness_InjectorMethodsAgree : ([0, 0, 0xFE] : List Byte) ≠ [] ∧ ([0, 0, 1] : List Byte) ≠ [] ∧
    DeviceType.ws2812 ≠ .none ∧ representable 2 (timingOf .ws2812) = true := by decide
theorem witness_WrittenCellsStayWritten : (made noDraws).Inv ∧ (made noDraws).ctx.lifecycle = .created ∧
    exec (.fillBuffer .strip) (made noDraws) = .next { filled noDraws with results := [.ok] } ∧
    (filled noDraws).ctx.lifecycle = .created ∧ (filled noDraws).ctx.allWritten ∧ step (filled noDraws) = .next (filled noDraws) :=
  ⟨made_inv _, rfl, rfl, rfl, oneWire_written, rfl⟩

theorem witness_BindCompletes : (start calls).oracles.periph = [.ok, .ok, .ok, .ok, .ok] := by decide
/-- Vectors B2 and B6: the first and the last of the five calls. -/
theorem witness_BindStopsAtFirstFailure :
    (start { noDraws with periph := [.err 1] }).oracles.periph = List.replicate 0 .ok ++ [.err 1] ∧
    (start { noDraws with periph := [.ok, .ok, .ok, .ok, .err 0] }).oracles.periph = List.replicate 4 .ok ++ [.err 0] ∧
    (bindCalls 4 5 1)[0]? = some (.stopChannel 1) ∧ (bindCalls 4 5 1)[4]? = some (.installDriver 1) := by decide
theorem witness_TransmitCompletes : (ready calls).ctx.lifecycle = .created ∧ (ready calls).ctx.bound = some (5, 1) ∧
    (ready calls).ctx.txbuf = some oneFrame ∧ (ready calls).oracles.periph = [.ok, .ok, .ok, .ok, .ok] := by decide
/-- Vector X7, with a length of none of the frame, and one of more than all of it. -/
theorem witness_TransmitReportsFailure :
    (ready { noDraws with periph := [.err 5], leading := [0] }).oracles.periph = [.err 5] ∧
    (ready { noDraws with periph := [.err 5], leading := [0] }).oracles.leading = [0] ∧
    (ready { noDraws with periph := [.err 5], leading := [25] }).ctx.bound = some (5, 1) ∧
    (ready { noDraws with periph := [.err 5], leading := [25] }).ctx.lifecycle = .created ∧
    (ready { noDraws with periph := [.err 5], leading := [25] }).ctx.txbuf = some oneFrame ∧
    oneFrame.take 25 = oneFrame := by decide
theorem witness_TransmitUnderEveryAnswer : (ready noDraws).ctx.lifecycle = .created ∧
    (ready noDraws).ctx.bound = some (5, 1) ∧ (ready noDraws).ctx.txbuf = some oneFrame := by decide
theorem witness_TransmitFaults : (filled noDraws).ctx.lifecycle = .created ∧ (filled noDraws).ctx.bound = none ∧
    (strip oneWire none (some (5, 1)) noDraws).ctx.bound.isSome ∧ (strip oneWire none (some (5, 1)) noDraws).ctx.txbuf = none := by
  decide

/-- The filled and bound strip, with an allocation and a write that succeed. -/
def shown : State := strip oneWire none (some (5, 1)) { noDraws with alloc := [.ok], periph := [.ok] }

theorem shown_inv (o : Oracles) : (strip oneWire none (some (5, 1)) o).Inv :=
  ⟨oneLed_inv _ _ _ rfl (by decide) (by simp), (by decide : 1 ≤ 50)⟩

theorem witness_ShowSendsThePixels : shown.Inv ∧ shown.ctx.lifecycle = .created ∧ shown.ctx.pixels = some onePixel ∧
    shown.ctx.bound = some (5, 1) ∧ representable shown.params.tickNs shown.ctx.timing = true ∧
    shown.oracles.alloc = [.ok] ∧ shown.oracles.periph = [.ok] ∧
    (after (showFrame .strip shown) fun t => t.trace) = some [.emitted 1 oneFrame] :=
  ⟨shown_inv _, rfl, rfl, rfl, by decide, rfl, rfl, by decide⟩
theorem witness_ShowStopsAtFirstError : gone.ctx.lifecycle ≠ .created ∧ (made { noDraws with alloc := [.fail] }).Inv ∧
    (made { noDraws with alloc := [.fail] }).ctx.lifecycle = .created ∧
    representable 50 (made { noDraws with alloc := [.fail] }).ctx.timing = true ∧
    (made { noDraws with alloc := [.fail] }).oracles.alloc = [.fail] := ⟨by decide, made_inv _, rfl, by decide, rfl⟩

/-- The last nanosecond of each part of a descriptor. -/
theorem witness_LineLevels : 349 < 7 * 50 ∧ 799 < 16 * 50 ∧ wireTime 50 [⟨.high, 7, .low, 16⟩] ≤ 1150 ∧
    levelAt (wave 50 [⟨.high, 7, .low, 16⟩]) 349 = .high ∧ levelAt (wave 50 [⟨.high, 7, .low, 16⟩]) 350 = .low := by decide
/-- The nanosecond before the frame, its first and last one, and the first after it (78000 ns, `test_wire_time`). -/
theorem witness_LineIdlesLow : (-1 : Int) < 0 ∧ (wireTime 50 (Event.emitted 1 oneFrame).sent : Int) ≤ 78000 ∧
    (0 : Int) < (wireTime 50 (Event.emitted 1 oneFrame).sent : Int) ∧
    (77999 : Int) < (wireTime 50 (Event.emitted 1 oneFrame).sent : Int) ∧
    (Event.emitted 1 oneFrame).lineLevel 50 (-1) = .low ∧ (Event.emitted 1 oneFrame).lineLevel 50 0 = .high ∧
    (Event.emitted 1 oneFrame).lineLevel 50 78000 = .low := by decide
/-- Vector E-15: the reset window of WS2812B at 300 ns a tick is 933 ticks, 279900 ns. -/
theorem witness_FrameEndsInResetWindow : (1 : Nat) ≤ 300 ∧ ([0, 0, 0] : List Byte) ≠ [] ∧
    ticks 300 (timingOf .ws2812b).resetNs = 933 := by decide
theorem witness_PackedPulseRoundTrip : pulseSound ⟨.high, 21, .low, 32767⟩ = true ∧
    pulseSound ⟨.high, 21, .low, 32768⟩ = false ∧ packPulse ⟨.high, 21, .low, 32768⟩ = none ∧
    packPulse ⟨.high, 21, .low, 5600⟩ = some 0x15E08015 := by decide

end Sys2Proof.Tests
end

section
/-! The state after power-on reset (10_state.md R40, R41). -/

namespace Sys2Proof.Machine

/-- 10_state.md R40: the null state, told field by field; LIFECYCLE and BOUND are free. -/
theorem Ctx.isNull_iff (c : Ctx) : c.isNull ↔
    c.deviceType = .none ∧ c.length = 0 ∧ c.maxc = 0 ∧ c.timing = Timing.zero ∧
    c.pixels = none ∧ c.wire = none ∧ c.txbuf = none := by
  constructor
  · intro (h : c.null = c)
    rw [← h]
    simp
  · cases c
    rintro ⟨rfl, rfl, rfl, rfl, rfl, rfl, rfl⟩
    rfl

theorem Ctx.reset_isNull : Ctx.reset.isNull :=
  Ctx.reset.isNull_iff.mpr ⟨rfl, rfl, rfl, rfl, rfl, rfl, rfl⟩

/-- Settles O13: each field of the reset state is the value R41 gives it, and the strip fields among them are those of
the null state. -/
theorem resetState : Obligations.ResetState :=
  ⟨rfl, Ctx.reset_isNull, rfl, rfl, rfl⟩

end Sys2Proof.Machine
end

section
/-! FILL_BUFFER and the layout of the wire buffer (20_memory.md R55, 40_strip_manager.md R108). -/

namespace Sys2Proof.Machine

/-- R44(a): a context that meets its invariant and has both memories is Created. -/
theorem Ctx.Inv.created_of_memories {c : Ctx} (h : c.Inv) {pix : Memory Pixel} {wire : Memory Byte}
    (hp : c.pixels = some pix) (hw : c.wire = some wire) : c.lifecycle = .created :=
  h.createdIff.mpr ⟨by simp [hp], by simp [hw]⟩

/-- FILL_BUFFER on a Created strip with its memories: the loop's buffer becomes WIRE, and the answer is OK. -/
theorem exec_fillBuffer_strip_of_created {s : State} {pix : Memory Pixel} {wire : Memory Byte}
    (hl : s.ctx.lifecycle = .created) (hp : s.ctx.pixels = some pix) (hw : s.ctx.wire = some wire) :
    exec (.fillBuffer .strip) s =
      .next ((s.setWire (serializePixels pix wire s.ctx.length.toNat)).report .ok) := by
  change execFillBuffer .strip s = _
  simp only [execFillBuffer, createdPixels?_eq_some.mpr ⟨hl, hp⟩, createdWire?_eq_some.mpr ⟨hl, hw⟩]
  rfl

/-- R55: in a buffer with room for `n` LEDs, byte `c` of LED `i` is component `c` of pixel `i` after the loop. -/
theorem readByte_serializePixels_led (pix : Memory Pixel) {w : Memory Byte} {n i c : Nat}
    (hroom : 3 * n ≤ w.size) (hi : i < n) (hc : c < 3) :
    readByte (serializePixels pix w n) (3 * i + c) = some (wireComponent (readPixel pix i) c) := by
  have hdiv : (3 * i + c) / 3 = i := by omega
  have hmod : (3 * i + c) % 3 = c := by omega
  have hlt : 3 * i + c < w.size := by omega
  rw [readByte_serializePixels, hdiv, hmod, if_pos ⟨hi, hlt⟩]

/-- Settles O35: under the invariant the strip is Created and WIRE has exactly three cells an LED, so the loop runs and
each LED's bytes are the components of its pixel. -/
theorem fillBufferCompletes : Obligations.FillBufferCompletes := by
  intro s pix wire hinv hp hw
  have hl := hinv.ctx.created_of_memories hp hw
  have hroom : 3 * s.ctx.length.toNat ≤ wire.size := (hinv.ctx.wireSize wire hw).ge
  refine ⟨serializePixels pix wire s.ctx.length.toNat, exec_fillBuffer_strip_of_created hl hp hw,
    serializePixels_size pix wire _, fun i hi => ?_⟩
  have hbyte {c : Nat} (hc : c < 3) := readByte_serializePixels_led pix hroom hi hc
  exact ⟨hbyte (c := 0) (by decide), hbyte (c := 1) (by decide), hbyte (c := 2) (by decide)⟩

end Sys2Proof.Machine
end

section
/-! CREATE where both allocations succeed (40_strip_manager.md R103, R104). -/

namespace Sys2Proof.Machine

/-- CREATE past its checks, where both draws are granted: the two draws' state, the new context, and OK. -/
theorem exec_create_strip_of_granted {s s₁ s₂ : State} {t : DeviceType} {len : BitVec 16} {maxc : Byte}
    (hl : s.ctx.lifecycle = .uninitialized) (ht : t ≠ .none) (hlen : len ≠ 0)
    (hpix : drawAlloc .pix len.toNat s = (.ok, s₁))
    (hwire : drawAlloc .wire (len.toNat * bytesPerLed t) s₁ = (.ok, s₂)) :
    exec (.create .strip (.known t) len maxc) s =
      .next ((s₂.setCtx (s₂.ctx.create t len maxc)).report .ok) := by
  have hreal : realDevice? (.known t) = some t := realDevice?_eq_some.mpr ⟨rfl, ht⟩
  change execCreate .strip (.known t) len maxc s = _
  simp only [execCreate, hl, ne_eq, not_true_eq_false, if_false, hreal, hlen, hpix, hwire, finish]

/-- Settles O28: the two queued answers grant both draws, and the fresh memories CREATE leaves have the sizes asked for
and nothing listed. -/
theorem createCompletes : Obligations.CreateCompletes := by
  intro s t len maxc rest hl ht hlen halloc
  have hbytes : bytesPerLed t = 3 := bytesPerLed_of_real ht
  have hexec := exec_create_strip_of_granted (maxc := maxc) hl ht hlen (drawAlloc_queued halloc) (drawAlloc_queued rfl)
  refine ⟨Memory.fresh len.toNat, Memory.fresh (len.toNat * 3), ?_, rfl, readPixel_fresh _, Nat.mul_comm _ _,
    readByte_fresh _⟩
  simp [hexec, hbytes, State.report, State.setCtx, State.withOracles, Ctx.create]

end Sys2Proof.Machine
end

section
/-! The core block's two queries: SET_TIMINGS and DERIVE_PULSES (41_protocol_encoder.md R131 to R136). -/

namespace Sys2Proof.Machine

/-- R133: SET_TIMINGS of a device type reports its row of the table, whatever the lifecycle state. -/
theorem exec_setTimings_known (t : DeviceType) (s : State) :
    exec (.setTimings (.known t)) s = .next (s.report (.okTiming (timingOf t))) := rfl

/-- R133: code 7 names no device type. -/
theorem exec_setTimings_unrecognized (s : State) :
    exec (.setTimings .unrecognized) s = .next (s.report (.invalidArgument .deviceType)) := rfl

/-- R136: DERIVE_PULSES reports the descriptors of the context's own timing fields, which it does not check. -/
theorem exec_derivePulses_strip (s : State) :
    exec (.derivePulses .strip) s = .next (s.report (.okPulses (canonical s.params.tickNs s.ctx.timing))) := rfl

/-- R134, R135: the canonical descriptors, each duration written out as a truncating quotient. -/
theorem canonical_eq_quotients (tick : Nat) (t : Timing) :
    canonical tick t =
      { pd0  := ⟨.high, t.t0h.toNat / tick, .low, t.t0l.toNat / tick⟩
        pd1  := ⟨.high, t.t1h.toNat / tick, .low, t.t1l.toNat / tick⟩
        pd0r := ⟨.high, t.t0h.toNat / tick, .low, t.resetNs.toNat / tick⟩
        pd1r := ⟨.high, t.t1h.toNat / tick, .low, t.resetNs.toNat / tick⟩ } := rfl

/-- Settles O37: each row listed is the one `timingOf` gives its type, and both answers only add a result. -/
theorem setTimingsReturnsTheRow : Obligations.SetTimingsReturnsTheRow := by
  refine fun s => ⟨fun t row hrow => ?_, exec_setTimings_unrecognized s⟩
  have htable : timingOf t = row := by
    rcases hrow with ⟨rfl, rfl⟩ | ⟨rfl, rfl⟩ | ⟨rfl, rfl⟩ | ⟨rfl, rfl⟩ | ⟨rfl, rfl⟩ | ⟨rfl, rfl⟩ | ⟨rfl, rfl⟩ <;> rfl
  rw [exec_setTimings_known, htable]
  rfl

/-- Settles O38: the reported descriptors are the quotients of the context's timing fields by the tick. -/
theorem derivePulsesCompletes : Obligations.DerivePulsesCompletes := by
  intro s
  rw [exec_derivePulses_strip, canonical_eq_quotients]
  rfl

end Sys2Proof.Machine
end

section
/-! TRANSMIT where the blocking write succeeds (42_transmitter.md R175 to R177). -/

namespace Sys2Proof.Machine

/-- R176, R177: TRANSMIT past its checks, where the one write of the whole sequence answers ok: the event is emitted from
the draw's state, TXBUF is Absent, and the answer is OK. -/
theorem exec_transmit_strip_of_write_ok {s s₁ : State} {pin chan : Byte} {seq : List PulseDescriptor}
    (hl : s.ctx.lifecycle = .created) (hb : s.ctx.bound = some (pin, chan)) (htx : s.ctx.txbuf = some seq)
    (hwrite : drawPeriph (.write chan seq true) s = (.ok, s₁)) :
    exec (.transmit .strip) s =
      .next (((s₁.emit (.emitted chan seq)).setTxbuf none).report .ok) := by
  change execTransmit .strip s = _
  simp only [execTransmit, hl, ne_eq, not_true_eq_false, if_false, hb, htx, hwrite, finish]

/-- Settles O50: the queued answer is the write's, so the draw consumes it, records the one call and changes nothing
else. -/
theorem transmitCompletes : Obligations.TransmitCompletes := by
  intro s pin chan seq rest hl hb htx hperiph
  rw [exec_transmit_strip_of_write_ok hl hb htx (drawPeriph_queued hperiph)]
  rfl

end Sys2Proof.Machine
end

section
/-! The decoder and the encoder as inverse functions, and the opcode table's rows told field by field (30_encoding.md
R70 to R79, R86 to R88). -/

namespace Sys2Proof

/-! ### The one word of an instruction -/

@[simp] theorem admitIf_eq_ok {b : Bool} {i j : Instr} : admitIf b i = .ok j ↔ b = true ∧ i = j := by
  cases b <;> simp [admitIf]

@[simp] theorem admitIf_eq_error {b : Bool} {i : Instr} {e : DecodeError} :
    admitIf b i = .error e ↔ b = false ∧ e = .nonzeroUnused := by
  cases b <;> simp [admitIf, eq_comm]

/-- R79: the fields of an instruction's word decode to the instruction. -/
theorem decodeFields_fields (i : Instr) : decodeFields i.fields = .ok i := by
  cases i <;>
    simp [Instr.fields, Fields.blank, decodeFields, Fields.onlyHandle, Fields.onlyCreate, Fields.onlyPixel,
      Fields.onlyDType, Fields.onlyBind]

/-- R73: fields that decode are those of the instruction's own word, since every field it does not use is zero. -/
theorem fields_of_decodeFields {f : Fields} {i : Instr} (h : decodeFields f = .ok i) : i.fields = f := by
  obtain ⟨op, hv, dtype, maxc, len, r, g, b, reserved⟩ := f
  simp only [decodeFields] at h
  split_ifs at h with h0 h1 h2 h3 h4 h5 h6 h7 h8 h9 <;>
  · obtain ⟨hunused, rfl⟩ := admitIf_eq_ok.mp h
    simp_all [Instr.fields, Fields.blank, Fields.onlyHandle, Fields.onlyCreate, Fields.onlyPixel,
      Fields.onlyDType, Fields.onlyBind]

/-- R70: a word decodes to an instruction exactly when it is that instruction's encoding. -/
theorem decode_eq_ok_iff {w : CmdWord} {i : Instr} : decode w = .ok i ↔ encode i = w := by
  constructor
  · intro h
    rw [encode, fields_of_decodeFields h, Fields.toWord_ofWord]
  · rintro rfl
    rw [decode, encode, Fields.ofWord_toWord, decodeFields_fields]

@[simp] theorem decode_encode (i : Instr) : decode (encode i) = .ok i := decode_eq_ok_iff.mpr rfl

/-- Settles O1: cutting an encoded word gives the instruction's fields back, and those decode to it. -/
theorem decodeOfEncode : Obligations.DecodeOfEncode := decode_encode

/-- Settles O2: the fields of a word that decodes are the instruction's, and the word is the one with those fields. -/
theorem encodeOfDecode : Obligations.EncodeOfDecode := fun _ _ => decode_eq_ok_iff.mp

/-! ### The rows of the opcode table -/

/-- A row admits a word exactly when every field of the word, under the row's mask, is the field of the row's pattern. -/
theorem OpcodeRow.admits_iff (row : OpcodeRow) (w : CmdWord) :
    row.admits w = true ↔ Fields.ofWord (w &&& row.mask) = Fields.ofWord row.pattern := by
  rw [OpcodeRow.admits, decide_eq_true_iff]
  exact ⟨congrArg _, fun h => by rw [← Fields.toWord_ofWord (w &&& row.mask), h, Fields.toWord_ofWord]⟩

/-- Masking a word masks each of its fields. -/
theorem Fields.ofWord_and (w m : CmdWord) :
    Fields.ofWord (w &&& m) =
      { op := (ofWord w).op &&& (ofWord m).op, hv := (ofWord w).hv &&& (ofWord m).hv,
        dtype := (ofWord w).dtype &&& (ofWord m).dtype, maxc := (ofWord w).maxc &&& (ofWord m).maxc,
        len := (ofWord w).len &&& (ofWord m).len, r := (ofWord w).r &&& (ofWord m).r,
        g := (ofWord w).g &&& (ofWord m).g, b := (ofWord w).b &&& (ofWord m).b,
        reserved := (ofWord w).reserved &&& (ofWord m).reserved } := by
  simp [Fields.ofWord, BitVec.extractLsb'_and]

/-- A mask with every bit set keeps the value. -/
theorem and_of_eq_allOnes {n : Nat} (v : BitVec n) {m : BitVec n} (hm : m = BitVec.allOnes n) : v &&& m = v := by
  rw [hm, BitVec.and_allOnes]

/-- R73: a word that a row admits decodes: its opcode is the row's, and the fields the row does not use are zero. -/
theorem decode_of_admits {row : OpcodeRow} {w : CmdWord} (hrow : row ∈ opcodeRows) (h : row.admits w = true) :
    ∃ i, decode w = .ok i := by
  rw [row.admits_iff, Fields.ofWord_and] at h
  simp only [opcodeRows, List.mem_cons, List.not_mem_nil, or_false] at hrow
  unfold decode
  generalize Fields.ofWord w = f at h ⊢
  rcases hrow with rfl | rfl | rfl | rfl | rfl | rfl | rfl | rfl | rfl | rfl <;>
  · simp [Instr.row, Fields.ofWord, and_of_eq_allOnes] at h
    simp [decodeFields, h, Fields.onlyHandle, Fields.onlyCreate, Fields.onlyPixel, Fields.onlyDType, Fields.onlyBind]

/-- R72: every instruction's row is one of the ten. -/
theorem Instr.row_mem (i : Instr) : i.row ∈ opcodeRows := by
  cases i <;> simp [opcodeRows, Instr.row]

/-- R73: an instruction's own row admits its word. -/
theorem row_admits_encode (i : Instr) : i.row.admits (encode i) = true := by
  have hrow : Laws.TableRow.Statement i := by
    cases i with
    | initStrip h => exact Laws.TableRow.initStrip h
    | create h d len maxc => exact Laws.TableRow.create h d len maxc
    | destroy h => exact Laws.TableRow.destroy h
    | setPixel h idx r g b => exact Laws.TableRow.setPixel h idx r g b
    | fillBuffer h => exact Laws.TableRow.fillBuffer h
    | setTimings d => exact Laws.TableRow.setTimings d
    | derivePulses h => exact Laws.TableRow.derivePulses h
    | encode h => exact Laws.TableRow.encode h
    | bind h pin chan => exact Laws.TableRow.bind h pin chan
    | transmit h => exact Laws.TableRow.transmit h
  exact decide_eq_true hrow

/-- R73: the words of the ten rows are the words that decode. -/
theorem decodes_iff_admitted (w : CmdWord) :
    (∃ i, decode w = .ok i) ↔ ∃ row ∈ opcodeRows, row.admits w = true := by
  constructor
  · rintro ⟨i, hi⟩
    exact ⟨i.row, i.row_mem, decode_eq_ok_iff.mp hi ▸ row_admits_encode i⟩
  · rintro ⟨row, hmem, hadmits⟩
    exact decode_of_admits hmem hadmits

/-- R79: the opcode alone tells a reserved one; the unused bits come after. -/
theorem decode_reserved_iff (w : CmdWord) :
    decode w = .error .reservedOpcode ↔ 0xA ≤ (w.extractLsb' 0 4).toNat := by
  change decodeFields (Fields.ofWord w) = _ ↔ 0xA ≤ (Fields.ofWord w).op.toNat
  generalize Fields.ofWord w = f
  simp only [decodeFields]
  split_ifs with h0 h1 h2 h3 h4 h5 h6 h7 h8 h9
  case neg =>
    simp only [true_iff]
    bv_omega
  all_goals simp [*]

/-- Settles O3: the reserved verdict is the opcode's, the words that decode are the rows' words, and a word neither
reserved nor decoded has the one verdict left. -/
theorem decoderVerdicts : Obligations.DecoderVerdicts := by
  intro w
  refine ⟨decode_reserved_iff w, ?_, decodes_iff_admitted w, fun i hi => decode_eq_ok_iff.mp hi ▸ row_admits_encode i⟩
  have hreserved := decode_reserved_iff w
  have hok := decodes_iff_admitted w
  have hop : (w.extractLsb' 0 4).toNat ≤ 0x9 ↔ ¬ 0xA ≤ (w.extractLsb' 0 4).toNat := by omega
  have hnone : (∀ row ∈ opcodeRows, row.admits w = false) ↔ ¬ ∃ row ∈ opcodeRows, row.admits w = true := by simp
  rw [hop, hnone, ← hok, ← hreserved]
  rcases decode w with (_ | _) | i <;> simp

/-- The opcode field lies under every row's mask, and the ten patterns differ in it. -/
theorem opcodeRows_eq_of_opcode : ∀ a ∈ opcodeRows, ∀ b ∈ opcodeRows,
    a.pattern &&& 0xF = b.pattern &&& 0xF → a = b := by decide

theorem opcodeRows_mask_covers_opcode : ∀ a ∈ opcodeRows, a.mask &&& 0xF = 0xF := by decide

/-- R72: a word's opcode is that of any row that admits it. -/
theorem opcode_of_admits {row : OpcodeRow} {w : CmdWord} (hrow : row ∈ opcodeRows) (h : row.admits w = true) :
    row.pattern &&& 0xF = w &&& 0xF := by
  rw [← of_decide_eq_true h, BitVec.and_assoc, opcodeRows_mask_covers_opcode row hrow]

/-- Settles O4: both rows have the word's opcode, and no two rows share one. -/
theorem opcodeRowsDisjoint : Obligations.OpcodeRowsDisjoint := fun _ a ha b hb hwa hwb =>
  opcodeRows_eq_of_opcode a ha b hb ((opcode_of_admits ha hwa).trans (opcode_of_admits hb hwb).symm)

/-- Settles O5: each word is run through the decoder. -/
theorem sampleWordsDecode : Obligations.SampleWordsDecode := by
  unfold Obligations.SampleWordsDecode
  decide

/-! ### The assembler -/

/-- R87: a line whose operands fit assembles to the encodings of its commands. -/
theorem assemble_of_wellFormed {l : AsmLine} (h : l.wellFormed = true) : assemble l = some (l.expand.map encode) :=
  if_pos h

/-- R87: a line with an operand that does not fit has no encoding. -/
theorem assemble_of_not_wellFormed {l : AsmLine} (h : l.wellFormed = false) : assemble l = none := by
  simp [assemble, h]

/-- Settles O6: a line that fits its fields expands to instructions whose words decode to them, and an operand below its
field's bound is the value of the field it is written to. -/
theorem assembledOperandsExact : Obligations.AssembledOperandsExact := by
  refine ⟨fun h t len maxc => ⟨?_, ?_⟩, fun h idx r g b => ⟨?_, ?_⟩, fun h pin chan => ⟨?_, ?_⟩, fun h => ?_⟩
  · rintro ⟨hlen, hmaxc⟩
    refine ⟨_, _, _, assemble_of_wellFormed ?_, decode_encode _, ?_, ?_⟩
    · simp [AsmLine.wellFormed, AsmDType.wellFormed, hlen, hmaxc]
    · exact Nat.mod_eq_of_lt hlen
    · exact Nat.mod_eq_of_lt hmaxc
  · intro hbig
    refine assemble_of_not_wellFormed ?_
    simp only [AsmLine.wellFormed, AsmDType.wellFormed, Bool.and_eq_false_iff, decide_eq_false_iff_not]
    omega
  · rintro ⟨hidx, hr, hg, hb⟩
    refine ⟨_, _, _, _, _, assemble_of_wellFormed ?_, decode_encode _, ?_, ?_, ?_, ?_⟩
    · simp [AsmLine.wellFormed, hidx, hr, hg, hb]
    · exact Nat.mod_eq_of_lt hidx
    · exact Nat.mod_eq_of_lt hr
    · exact Nat.mod_eq_of_lt hg
    · exact Nat.mod_eq_of_lt hb
  · intro hbig
    refine assemble_of_not_wellFormed ?_
    simp only [AsmLine.wellFormed, Bool.and_eq_false_iff, decide_eq_false_iff_not]
    omega
  · rintro ⟨hpin, hchan⟩
    refine ⟨_, _, _, assemble_of_wellFormed ?_, decode_encode _, ?_, ?_⟩
    · simp [AsmLine.wellFormed, hpin, hchan]
    · exact Nat.mod_eq_of_lt hpin
    · exact Nat.mod_eq_of_lt hchan
  · intro hbig
    refine assemble_of_not_wellFormed ?_
    simp only [AsmLine.wellFormed, Bool.and_eq_false_iff, decide_eq_false_iff_not]
    omega
  · exact ⟨_, _, _, assemble_of_wellFormed rfl, decode_encode _, decode_encode _, decode_encode _⟩

end Sys2Proof
end

section
/-! One step told by the pending word and the marks (10_state.md R42, 20_memory.md R60, R64, 60_exceptions.md R219,
R220). -/

namespace Sys2Proof.Machine

section Unmarked
variable {s : State} (hf : s.faultMark = none) (hr : s.refusalMark = none)
include hf hr

theorem takeCommand_of_idle (hc : s.commands = []) : takeCommand s = .next (none, s) := by
  simp [takeCommand, hf, hr, hc]

theorem takeCommand_of_decoded {w : CmdWord} {rest : List CmdWord} {i : Instr} (hc : s.commands = w :: rest)
    (hd : decode w = .ok i) : takeCommand s = .next (some i, { s with commands := rest }) := by
  simp [takeCommand, hf, hr, hc, hd]

theorem takeCommand_of_refused {w : CmdWord} {rest : List CmdWord} {e : DecodeError} (hc : s.commands = w :: rest)
    (hd : decode w = .error e) : takeCommand s = .refused (Refusal.ofDecode e) := by
  simp [takeCommand, hf, hr, hc, hd]

/-- R219: with no word pending the block is idle. -/
theorem step_of_idle (hc : s.commands = []) : step s = .next s := by
  simp only [step, takeCommand_of_idle hf hr hc]

/-- R64: a step runs the decoded instruction on the state with its word taken. -/
theorem step_of_decoded {w : CmdWord} {rest : List CmdWord} {i : Instr} (hc : s.commands = w :: rest)
    (hd : decode w = .ok i) : step s = exec i { s with commands := rest } := by
  simp only [step, takeCommand_of_decoded hf hr hc hd]

/-- R207: a step on a word the decoder refuses is that refusal. -/
theorem step_of_refused {w : CmdWord} {rest : List CmdWord} {e : DecodeError} (hc : s.commands = w :: rest)
    (hd : decode w = .error e) : step s = .refused (Refusal.ofDecode e) := by
  simp only [step, takeCommand_of_refused hf hr hc hd]

end Unmarked

section Advance
variable {s : State}

theorem advance_of_next {t : State} (h : step s = .next t) : advance s = t := by simp only [advance, h]

theorem advance_of_fault {f : Fault} (h : step s = .fault f) : advance s = { s with faultMark := some f } := by
  simp only [advance, h]

theorem advance_of_refused {r : Refusal} (h : step s = .refused r) :
    advance s = { s with refusalMark := some r } := by
  simp only [advance, h]

end Advance

/-- R220: a recorded fault stops every later step, and leaves the state with it. -/
theorem advance_of_faultMark {s : State} {f : Fault} (h : s.faultMark = some f) : advance s = s := by
  have hstep : step s = .fault f := by simp [step, takeCommand, h]
  rw [advance_of_fault hstep, ← h]

/-- R220: so does a recorded refusal. -/
theorem advance_of_refusalMark {s : State} {r : Refusal} (hf : s.faultMark = none) (h : s.refusalMark = some r) :
    advance s = s := by
  have hstep : step s = .refused r := by simp [step, takeCommand, hf, h]
  rw [advance_of_refused hstep, ← h]

/-- R220: a state with either mark is its own next run state. -/
theorem advance_of_marked {s : State} (h : s.unmarked = false) : advance s = s := by
  cases hf : s.faultMark with
  | some f => exact advance_of_faultMark hf
  | none =>
    cases hr : s.refusalMark with
    | some r => exact advance_of_refusalMark hf hr
    | none => simp [State.unmarked, hf, hr] at h

/-- Settles O7: the marks are clear and the word decodes, so the step is that command's. -/
theorem stepRunsDecodedCommand : Obligations.StepRunsDecodedCommand :=
  fun _ _ _ _ hf hr hc hd => step_of_decoded hf hr hc hd

/-- Settles O8: the step is the decoder's refusal, and `advance` records it. -/
theorem undecodableWordRefused : Obligations.UndecodableWordRefused := by
  intro s w rest hf hr hc
  have hrefused {e : DecodeError} (hd : decode w = .error e) :
      step s = .refused (Refusal.ofDecode e) ∧ advance s = { s with refusalMark := some (Refusal.ofDecode e) } :=
    ⟨step_of_refused hf hr hc hd, advance_of_refused (step_of_refused hf hr hc hd)⟩
  exact ⟨hrefused, hrefused⟩

/-- Settles O9: the step is the command's own fault, and `advance` records it. -/
theorem faultSetsItsMark : Obligations.FaultSetsItsMark := by
  intro s w rest i f hf hr hc hd hfault
  have hstep : step s = .fault f := (step_of_decoded hf hr hc hd).trans hfault
  exact ⟨hstep, advance_of_fault hstep⟩

/-- Settles O10, by induction on the number of steps: a marked state advances to itself. -/
theorem endedRunIsFinal : Obligations.EndedRunIsFinal := by
  intro s n h
  induction n with
  | zero => rfl
  | succ n ih => rw [advanceBy, advance_of_marked h, ih]

/-- Settles O11: no word is pending, so the step is idle. -/
theorem idleKeepsState : Obligations.IdleKeepsState := fun _ hf hr hc =>
  ⟨step_of_idle hf hr hc, advance_of_next (step_of_idle hf hr hc)⟩

/-- A table word that reads as an instruction decodes to it. -/
theorem decode_tableWord {nbits w : Nat} {i : Instr} (h : decodeTableWord nbits w = some i) :
    decode (tableWord nbits w) = .ok i := by
  simp only [decodeTableWord] at h
  split at h
  · split at h
    · rename_i j hj
      cases h
      exact hj
    · cases h
  · cases h

/-- Settles O12: issuing the word clears the marks and puts it first, so the step runs its instruction. -/
theorem placedWordRunsNext : Obligations.PlacedWordRunsNext := fun _ _ _ _ h =>
  step_of_decoded rfl rfl rfl (decode_tableWord h)

end Sys2Proof.Machine
end

section
/-! The strip manager's commands, one equation for each case of their rules (40_strip_manager.md R101 to R113). -/

namespace Sys2Proof.Machine

/-! ### Null handles -/

/-- Settles O23: the handle is checked first, whatever the state. -/
theorem nullHandleOutcomes : Obligations.NullHandleOutcomes := by
  refine fun s => ⟨?_, fun _ _ _ _ => rfl⟩
  rintro i (rfl | ⟨d, len, maxc, rfl⟩ | rfl | rfl | rfl | rfl | ⟨pin, chan, rfl⟩ | rfl) <;> rfl

/-! ### INITIALIZE -/

theorem exec_initStrip_strip_of_created {s : State} (hl : s.ctx.lifecycle = .created) :
    exec (.initStrip .strip) s = .fault .lifecycle := if_pos hl

theorem exec_initStrip_strip_of_not_created {s : State} (hl : s.ctx.lifecycle ≠ .created) :
    exec (.initStrip .strip) s = .next ((s.setCtx s.ctx.null).report .ok) := if_neg hl

/-- R44(c): under the invariant a strip that is not Created is in the null state already. -/
theorem Ctx.Inv.null_eq_self {c : Ctx} (h : c.Inv) (hl : c.lifecycle ≠ .created) : c.null = c := h.nullIff.mp hl

/-- Settles O26: INITIALIZE writes the null state, which the invariant says is there already. -/
theorem initStripCompletes : Obligations.InitStripCompletes := by
  intro s hl
  have hexec := exec_initStrip_strip_of_not_created hl
  exact ⟨hexec, fun hinv => by rw [hexec, hinv.ctx.null_eq_self hl]; rfl⟩

/-! ### CREATE -/

theorem exec_create_strip_of_not_uninitialized {s : State} (hl : s.ctx.lifecycle ≠ .uninitialized) (d : DType)
    (len : BitVec 16) (maxc : Byte) : exec (.create .strip d len maxc) s = .fault .lifecycle := if_pos hl

section Create
variable {s : State} (hl : s.ctx.lifecycle = .uninitialized) (maxc : Byte)
include hl

theorem exec_create_strip_of_unreal {d : DType} (hd : realDevice? d = none) (len : BitVec 16) :
    exec (.create .strip d len maxc) s = .next (s.report (.invalidArgument .deviceType)) := by
  change execCreate .strip d len maxc s = _
  simp only [execCreate, hl, ne_eq, not_true_eq_false, if_false, hd, finish]

variable {t : DeviceType} (ht : t ≠ .none)
include ht

theorem exec_create_strip_of_no_leds :
    exec (.create .strip (.known t) 0 maxc) s = .next (s.report (.invalidSize .length)) := by
  change execCreate .strip (.known t) 0 maxc s = _
  simp only [execCreate, hl, ne_eq, not_true_eq_false, if_false, realDevice?_eq_some.mpr ⟨rfl, ht⟩, if_true, finish]

variable {len : BitVec 16} (hlen : len ≠ 0) {s₁ s₂ : State}
include hlen

theorem exec_create_strip_of_pix_fails (hpix : drawAlloc .pix len.toNat s = (.fail, s₁)) :
    exec (.create .strip (.known t) len maxc) s = .next (s₁.report (.outOfMemory .pix)) := by
  change execCreate .strip (.known t) len maxc s = _
  simp only [execCreate, hl, ne_eq, not_true_eq_false, if_false, realDevice?_eq_some.mpr ⟨rfl, ht⟩, hlen, hpix, finish]

theorem exec_create_strip_of_wire_fails (hpix : drawAlloc .pix len.toNat s = (.ok, s₁))
    (hwire : drawAlloc .wire (len.toNat * bytesPerLed t) s₁ = (.fail, s₂)) :
    exec (.create .strip (.known t) len maxc) s = .next (s₂.report (.outOfMemory .wire)) := by
  change execCreate .strip (.known t) len maxc s = _
  simp only [execCreate, hl, ne_eq, not_true_eq_false, if_false, realDevice?_eq_some.mpr ⟨rfl, ht⟩, hlen, hpix, hwire,
    finish]

end Create

/-- Settles O24: both commands check the lifecycle before anything else. -/
theorem lifecycleFaults : Obligations.LifecycleFaults := fun _ =>
  ⟨exec_initStrip_strip_of_created, exec_create_strip_of_not_uninitialized⟩

/-- Settles O27: neither `none` nor code 7 is a real device type, and a real one is asked for no LEDs. -/
theorem createArgumentErrors : Obligations.CreateArgumentErrors := fun _ len maxc hl =>
  ⟨exec_create_strip_of_unreal hl maxc rfl len, exec_create_strip_of_unreal hl maxc rfl len,
    fun _ ht => exec_create_strip_of_no_leds hl maxc ht⟩

/-- Settles O29: the queued answers refuse the first draw, or grant it and refuse the second. -/
theorem createOutOfMemory : Obligations.CreateOutOfMemory := by
  intro s t len maxc rest hl ht hlen
  refine ⟨fun halloc => ?_, fun halloc => ?_⟩
  · rw [exec_create_strip_of_pix_fails hl maxc ht hlen (drawAlloc_queued halloc)]
    rfl
  · rw [exec_create_strip_of_wire_fails hl maxc ht hlen (drawAlloc_queued halloc) (drawAlloc_queued rfl)]
    simp [State.report, State.withOracles, bytesPerLed_of_real ht]

/-- R14: a draw of the allocator grants or refuses, and changes the oracles alone, where it is recorded. -/
theorem drawAlloc_cases (k : AllocKind) (n : Nat) (s : State) :
    ∃ o : Oracles, o.asked = s.oracles.asked ++ [.alloc k n] ∧
      (drawAlloc k n s = (.ok, s.withOracles o) ∨ drawAlloc k n s = (.fail, s.withOracles o)) := by
  refine ⟨_, drawAlloc_asked k n s, ?_⟩
  have hstate : (drawAlloc k n s).2 = s.withOracles (drawAlloc k n s).2.oracles := drawAlloc_state k n s
  cases ha : (drawAlloc k n s).1 with
  | ok => exact .inl (Prod.ext ha hstate)
  | fail => exact .inr (Prod.ext ha hstate)

/-- R103, R104: what CREATE with good arguments answers, under every answer of the allocator. -/
theorem exec_create_strip_cases {s : State} {t : DeviceType} {len : BitVec 16} (maxc : Byte)
    (hl : s.ctx.lifecycle = .uninitialized) (ht : t ≠ .none) (hlen : len ≠ 0) :
    ∃ o : Oracles, s.oracles.asked <+: o.asked ∧
      (exec (.create .strip (.known t) len maxc) s = .next ((s.withOracles o).report (.outOfMemory .pix)) ∨
        exec (.create .strip (.known t) len maxc) s = .next ((s.withOracles o).report (.outOfMemory .wire)) ∨
        exec (.create .strip (.known t) len maxc) s =
          .next (((s.withOracles o).setCtx (s.ctx.create t len maxc)).report .ok)) := by
  obtain ⟨o₁, ho₁, hpix | hpix⟩ := drawAlloc_cases .pix len.toNat s
  · obtain ⟨o₂, ho₂, hwire | hwire⟩ := drawAlloc_cases .wire (len.toNat * bytesPerLed t) (s.withOracles o₁)
    all_goals
      have hasked : s.oracles.asked <+: o₂.asked := by
        rw [ho₂, State.withOracles_oracles, ho₁, List.append_assoc]
        exact List.prefix_append _ _
    · exact ⟨o₂, hasked, .inr (.inr (exec_create_strip_of_granted hl ht hlen hpix hwire))⟩
    · exact ⟨o₂, hasked, .inr (.inl (exec_create_strip_of_wire_fails hl maxc ht hlen hpix hwire))⟩
  · exact ⟨o₁, ho₁ ▸ List.prefix_append _ _, .inl (exec_create_strip_of_pix_fails hl maxc ht hlen hpix)⟩

/-- Settles O30: each of the three answers leaves the context whole or untouched. -/
theorem createUnderEveryAnswer : Obligations.CreateUnderEveryAnswer := by
  intro s t len maxc hl ht hlen
  obtain ⟨o, -, h | h | h⟩ := exec_create_strip_cases maxc hl ht hlen
  · exact ⟨_, h, .inr (.inl ⟨rfl, rfl⟩)⟩
  · exact ⟨_, h, .inr (.inr ⟨rfl, rfl⟩)⟩
  · exact ⟨_, h, .inl ⟨rfl, rfl, rfl, rfl, rfl, rfl, rfl, rfl⟩⟩

/-! ### DESTROY -/

theorem exec_destroy_strip_of_created {s : State} (hl : s.ctx.lifecycle = .created) :
    exec (.destroy .strip) s = .next ((s.setCtx { s.ctx.null with lifecycle := .destroyed }).report .ok) := by
  change execDestroy .strip s = _
  simp only [execDestroy, hl, finish]

theorem exec_destroy_strip_of_not_created {s : State} (hl : s.ctx.lifecycle ≠ .created) :
    exec (.destroy .strip) s = .next (s.report .ok) := by
  change execDestroy .strip s = _
  cases h : s.ctx.lifecycle with
  | created => exact absurd h hl
  | uninitialized => simp only [execDestroy, h, finish]
  | destroyed => simp only [execDestroy, h, finish]

/-- Settles O31: the lifecycle decides, and DESTROY has no other case. -/
theorem destroyCompletes : Obligations.DestroyCompletes := fun _ =>
  ⟨exec_destroy_strip_of_created, exec_destroy_strip_of_not_created⟩

/-- Settles O32: after one DESTROY the strip is not Created, so the second changes nothing. -/
theorem destroyIsIdempotent : Obligations.DestroyIsIdempotent := by
  intro s
  by_cases hl : s.ctx.lifecycle = .created
  · exact ⟨_, exec_destroy_strip_of_created hl, rfl, exec_destroy_strip_of_not_created (by simp)⟩
  · exact ⟨_, exec_destroy_strip_of_not_created hl, rfl, exec_destroy_strip_of_not_created hl⟩

/-! ### SET_PIXEL -/

theorem createdPixels?_of_not_created {c : Ctx} (hl : c.lifecycle ≠ .created) : createdPixels? c = none := if_neg hl

theorem createdWire?_of_not_created {c : Ctx} (hl : c.lifecycle ≠ .created) : createdWire? c = none := if_neg hl

theorem exec_setPixel_strip_of_lt {s : State} {pix : Memory Pixel} {idx : BitVec 16} (r g b : Byte)
    (hl : s.ctx.lifecycle = .created) (hp : s.ctx.pixels = some pix) (hi : idx.toNat < s.ctx.length.toNat) :
    exec (.setPixel .strip idx r g b) s =
      .next ((s.setPixels (writePixel pix idx.toNat ⟨r, g, b⟩)).report .ok) := by
  change execSetPixel .strip idx r g b s = _
  simp only [execSetPixel, createdPixels?_eq_some.mpr ⟨hl, hp⟩, Nat.not_le.mpr hi, if_false, finish]

/-- Settles O33: PIX has LENGTH pixels, so the write lands, and it lists or unlists its own index alone. -/
theorem setPixelCompletes : Obligations.SetPixelCompletes := by
  intro s pix idx r g b hinv hp hi
  have hl : s.ctx.lifecycle = .created :=
    hinv.ctx.createdIff.mpr ⟨by simp [hp], by simp [← hinv.ctx.together, hp]⟩
  have hread := readPixel_writePixel pix (hinv.ctx.pixForm pix hp) idx.toNat
  refine ⟨_, exec_setPixel_strip_of_lt r g b hl hp hi, writePixel_size _ _ _, ?_, fun j hj => ?_⟩
  · rw [hread, if_pos ⟨rfl, (hinv.ctx.pixSize pix hp).symm ▸ hi⟩]
  · rw [hread, if_neg fun h => hj h.1]

theorem exec_setPixel_strip_of_no_pixels {s : State} (hp : createdPixels? s.ctx = none) (idx : BitVec 16)
    (r g b : Byte) : exec (.setPixel .strip idx r g b) s = .fault .pixel := by
  change execSetPixel .strip idx r g b s = _
  simp only [execSetPixel, hp]

theorem exec_setPixel_strip_of_le {s : State} {idx : BitVec 16} (hi : s.ctx.length.toNat ≤ idx.toNat) (r g b : Byte) :
    exec (.setPixel .strip idx r g b) s = .fault .pixel := by
  change execSetPixel .strip idx r g b s = _
  simp only [execSetPixel, hi, if_true]
  split <;> rfl

/-- Settles O34: no pixel array can be read unless the strip is Created, and then the index is checked. -/
theorem setPixelFaults : Obligations.SetPixelFaults := by
  rintro s idx r g b (hl | hi)
  · exact exec_setPixel_strip_of_no_pixels (createdPixels?_of_not_created hl) idx r g b
  · exact exec_setPixel_strip_of_le hi r g b

/-! ### FILL_BUFFER -/

theorem exec_fillBuffer_strip_of_no_memory {s : State}
    (h : createdPixels? s.ctx = none ∨ createdWire? s.ctx = none) :
    exec (.fillBuffer .strip) s = .next (s.report (.invalidArgument .state)) := by
  change execFillBuffer .strip s = _
  obtain h | h := h
  · simp only [execFillBuffer, h, finish]
  · simp only [execFillBuffer, h, finish]
    split
    · rename_i hwire
      cases hwire
    · rfl

theorem exec_fillBuffer_strip_of_not_created {s : State} (hl : s.ctx.lifecycle ≠ .created) :
    exec (.fillBuffer .strip) s = .next (s.report (.invalidArgument .state)) :=
  exec_fillBuffer_strip_of_no_memory (.inl (createdPixels?_of_not_created hl))

/-- R44(a): a Created strip under the invariant has both memories. -/
theorem Ctx.Inv.memories_of_created {c : Ctx} (h : c.Inv) (hl : c.lifecycle = .created) :
    ∃ pix wire, c.pixels = some pix ∧ c.wire = some wire := by
  obtain ⟨hp, hw⟩ := h.createdIff.mp hl
  obtain ⟨pix, hpix⟩ := Option.isSome_iff_exists.mp hp
  obtain ⟨wire, hwire⟩ := Option.isSome_iff_exists.mp hw
  exact ⟨pix, wire, hpix, hwire⟩

/-- R109: the loop writes nothing new over its own output. -/
theorem serializePixels_idem (pix : Memory Pixel) {w : Memory Byte} (h : wireWf w) (n : Nat) :
    serializePixels pix (serializePixels pix w n) n = serializePixels pix w n := by
  have hform := wireWf_serializePixels pix h n
  refine wire_ext (wireWf_serializePixels pix hform n) hform (by simp) fun k => ?_
  simp only [readByte_serializePixels, serializePixels_size]
  split <;> rfl

theorem State.setWire_self {s : State} {w : Memory Byte} (h : s.ctx.wire = some w) : s.setWire w = s := by
  rw [State.setWire_eq, ← h]
  rfl

/-- Settles O36: the second loop runs over the first one's output, with the same pixels. -/
theorem fillBufferIsIdempotent : Obligations.FillBufferIsIdempotent := by
  intro s t u hinv hl hst hlu hlen hpix hwire
  obtain ⟨pix, wire, hp, hw⟩ := hinv.ctx.memories_of_created hl
  rw [exec_fillBuffer_strip_of_created hl hp hw] at hst
  cases hst
  have hlen : u.ctx.length = s.ctx.length := hlen
  have hwire : u.ctx.wire = some (serializePixels pix wire s.ctx.length.toNat) := hwire
  rw [exec_fillBuffer_strip_of_created hlu (hpix.trans hp) hwire, hlen,
    serializePixels_idem pix (hinv.ctx.wireForm wire hw), State.setWire_self hwire]
  rfl

end Sys2Proof.Machine
end

section
/-! ENCODE and the pulses it makes (41_protocol_encoder.md R134 to R149), one equation for each case of its rule. -/

namespace Sys2Proof.Machine

/-! ### Which ticks a timing row is representable at -/

theorem durationFits_iff {d : Nat} : durationFits d = true ↔ 1 ≤ d ∧ d ≤ 32767 := by
  rw [durationFits, Bool.and_eq_true, decide_eq_true_iff, decide_eq_true_iff, Config.durMax]

/-- R134, R137: a truncated quotient fits exactly when the time is at least one tick and below 32768 of them. -/
theorem durationFits_ticks_iff {tick : Nat} (h : 1 ≤ tick) (ns : BitVec 32) :
    durationFits (ticks tick ns) = true ↔ tick ≤ ns.toNat ∧ ns.toNat < 32768 * tick := by
  rw [durationFits_iff, ticks, Nat.one_le_div_iff h, ← Nat.lt_succ_iff (n := 32767), Nat.div_lt_iff_lt_mul h]

theorem representable_iff {tick : Nat} {t : Timing} (h : 1 ≤ tick) :
    representable tick t = true ↔
      (tick ≤ t.t0h.toNat ∧ t.t0h.toNat < 32768 * tick) ∧ (tick ≤ t.t0l.toNat ∧ t.t0l.toNat < 32768 * tick) ∧
      (tick ≤ t.t1h.toNat ∧ t.t1h.toNat < 32768 * tick) ∧ (tick ≤ t.t1l.toNat ∧ t.t1l.toNat < 32768 * tick) ∧
      (tick ≤ t.resetNs.toNat ∧ t.resetNs.toNat < 32768 * tick) := by
  simp only [representable, Bool.and_eq_true, durationFits_ticks_iff h, and_assoc]

/-- R149: each type's range of ticks. -/
theorem representable_timingOf_iff (t : DeviceType) {tick : Nat} (h : 1 ≤ tick) :
    representable tick (timingOf t) = true ↔ (tickRange t).1 ≤ tick ∧ tick ≤ (tickRange t).2 := by
  rw [representable_iff h]
  cases t <;> simp only [timingOf, tickRange, BitVec.ofNat_eq_ofNat, BitVec.reduceToNat] <;> omega

/-! ### The cases of ENCODE -/

theorem exec_encode_strip_of_no_wire {s : State} (hw : createdWire? s.ctx = none) :
    exec (.encode .strip) s = .next ((s.setTxbuf none).report (.invalidArgument .state)) := by
  change execEncode .strip s = _
  simp only [execEncode, hw, finish]

theorem exec_encode_strip_of_not_created {s : State} (hl : s.ctx.lifecycle ≠ .created) :
    exec (.encode .strip) s = .next ((s.setTxbuf none).report (.invalidArgument .state)) :=
  exec_encode_strip_of_no_wire (createdWire?_of_not_created hl)

section Encode
variable {s : State} {wire : Memory Byte} (hl : s.ctx.lifecycle = .created) (hw : s.ctx.wire = some wire)
include hl hw

theorem exec_encode_strip_of_empty (hsize : wire.size = 0) :
    exec (.encode .strip) s = .next ((s.setTxbuf none).report (.invalidSize .bufferLength)) := by
  change execEncode .strip s = _
  simp only [execEncode, createdWire?_eq_some.mpr ⟨hl, hw⟩, hsize, if_true, finish]

variable (hsize : wire.size ≠ 0)
include hsize

theorem exec_encode_strip_of_unrepresentable (hr : representable s.params.tickNs s.ctx.timing = false) :
    exec (.encode .strip) s = .fault .timing := by
  change execEncode .strip s = _
  simp only [execEncode, createdWire?_eq_some.mpr ⟨hl, hw⟩, hsize, if_false, hr, if_true]

variable (hr : representable s.params.tickNs s.ctx.timing = true)
include hr

theorem exec_encode_strip_of_unwritten (hb : wireBytes wire = none) :
    exec (.encode .strip) s = .fault .unwritten := by
  change execEncode .strip s = _
  simp [execEncode, createdWire?_eq_some.mpr ⟨hl, hw⟩, hsize, hr, hb]

variable {bytes : List Byte} (hb : wireBytes wire = some bytes) {s₁ : State}
include hb

theorem exec_encode_strip_of_out_of_memory (hdraw : drawAlloc .tx (8 * wire.size) s = (.fail, s₁)) :
    exec (.encode .strip) s = .next ((s₁.setTxbuf none).report (.outOfMemory .tx)) := by
  change execEncode .strip s = _
  simp [execEncode, createdWire?_eq_some.mpr ⟨hl, hw⟩, hsize, hr, hb, hdraw, finish]

theorem exec_encode_strip_of_granted (hdraw : drawAlloc .tx (8 * wire.size) s = (.ok, s₁)) :
    exec (.encode .strip) s =
      .next ((s₁.setTxbuf (some (frameOf (canonical s.params.tickNs s.ctx.timing) bytes))).report .ok) := by
  change execEncode .strip s = _
  simp [execEncode, createdWire?_eq_some.mpr ⟨hl, hw⟩, hsize, hr, hb, hdraw, finish]

/-- R139, R142: what an ENCODE that passes its checks answers, under every answer of the allocator. -/
theorem exec_encode_strip_cases :
    ∃ o : Oracles, s.oracles.asked <+: o.asked ∧
      (exec (.encode .strip) s = .next (((s.withOracles o).setTxbuf none).report (.outOfMemory .tx)) ∨
        exec (.encode .strip) s =
          .next (((s.withOracles o).setTxbuf
            (some (frameOf (canonical s.params.tickNs s.ctx.timing) bytes))).report .ok)) := by
  obtain ⟨o, ho, hdraw | hdraw⟩ := drawAlloc_cases .tx (8 * wire.size) s
  · exact ⟨o, ho ▸ List.prefix_append _ _, .inr (exec_encode_strip_of_granted hl hw hsize hr hb hdraw)⟩
  · exact ⟨o, ho ▸ List.prefix_append _ _, .inl (exec_encode_strip_of_out_of_memory hl hw hsize hr hb hdraw)⟩

end Encode

/-- R27, R33: under the invariant a Created strip's wire buffer is not empty. -/
theorem Ctx.Inv.wire_size_ne_zero {c : Ctx} (h : c.Inv) (hl : c.lifecycle = .created) {wire : Memory Byte}
    (hw : c.wire = some wire) : wire.size ≠ 0 := by
  have hlen : c.length.toNat ≠ 0 := fun h0 => h.someLed hl (BitVec.eq_of_toNat_eq h0)
  rw [h.wireSize wire hw]
  omega

/-- Settles O39: the ranges are `tickRange`'s, and outside its own a Created strip's row is not representable, which
ENCODE checks before the cells. -/
theorem representableTickRanges : Obligations.RepresentableTickRanges := by
  refine ⟨fun t _ h => representable_timingOf_iff t h, rfl, rfl, rfl, rfl, rfl, rfl, fun s hinv hl _ hout => ?_⟩
  obtain ⟨-, wire, -, hw⟩ := hinv.ctx.memories_of_created hl
  refine exec_encode_strip_of_unrepresentable hl hw (hinv.ctx.wire_size_ne_zero hl hw) ?_
  rw [hinv.ctx.timingRow]
  exact Bool.eq_false_iff.mpr fun h => hout ((representable_timingOf_iff _ hinv.tick).mp h)

/-- Settles O41: each check is reached where the ones before it pass; a buffer with a cell is not empty. -/
theorem encodeChecksInOrder : Obligations.EncodeChecksInOrder := by
  refine fun s wire hl hw => ⟨exec_encode_strip_of_empty hl hw, exec_encode_strip_of_unrepresentable hl hw, ?_⟩
  rintro hr ⟨k, hk, hnone⟩
  exact exec_encode_strip_of_unwritten hl hw (by omega) hr (wireBytes_none hk hnone)

/-- Settles O42: the queued answer refuses the one draw. -/
theorem encodeOutOfMemory : Obligations.EncodeOutOfMemory := by
  intro s wire rest hl hw hsize hr hcells halloc
  obtain ⟨bytes, hb⟩ := wireBytes_isSome hcells
  exact exec_encode_strip_of_out_of_memory hl hw hsize hr hb (drawAlloc_queued halloc)

/-! ### The frame -/

theorem ne_nil_of_wireBytes {w : Memory Byte} {bytes : List Byte} (hb : wireBytes w = some bytes)
    (hsize : w.size ≠ 0) : bytes ≠ [] := by
  rintro rfl
  exact hsize (wireBytes_length hb).symm

/-- R146: the closed form of a frame, element `i` told by the byte it comes from. -/
theorem frameOf_getElem? (c : Canonical) {bytes : List Byte} {i : Nat} {v : Byte} (hi : i < 8 * bytes.length)
    (hv : bytes[i / 8]? = some v) :
    (frameOf c bytes)[i]? = some
      (if i < 8 * bytes.length - 1 then (if v.getLsbD (7 - i % 8) then c.pd1 else c.pd0)
        else (if v.getLsbD (7 - i % 8) then c.pd1r else c.pd0r)) := by
  split
  · rename_i hlt
    rw [frameOf_getElem?_lt c bytes hlt, hv]
    rfl
  · rename_i hge
    have hlast : i = 8 * bytes.length - 1 := by omega
    have hbyte : i / 8 = bytes.length - 1 := by omega
    have hbit : 7 - i % 8 = 0 := by omega
    rw [hbit, hlast, frameOf_getElem?_last c bytes (List.ne_nil_of_length_pos (by omega)), ← hbyte, hv]
    rfl

/-- Settles O40: the queued answer grants the draw, and the frame has R146's closed form over the bytes read. -/
theorem encodeCompletes : Obligations.EncodeCompletes := by
  intro s wire rest hl hw hsize hr hcells halloc
  obtain ⟨bytes, hb⟩ := wireBytes_isSome hcells
  have hlen : bytes.length = wire.size := wireBytes_length hb
  refine ⟨frameOf (canonical s.params.tickNs s.ctx.timing) bytes,
    exec_encode_strip_of_granted hl hw hsize hr hb (drawAlloc_queued halloc), by rw [frameOf_length, hlen],
    fun i v hi hv => ?_⟩
  rw [wireBytes_getElem? hb (by omega)] at hv
  rw [← hlen] at hi ⊢
  exact frameOf_getElem? _ hi hv

/-- R145: a frame of at least one byte ends in the reset window of its timing. -/
theorem frameOf_getLast? (c : Canonical) {bytes : List Byte} (h : bytes ≠ []) :
    (frameOf c bytes).getLast? = some (resetPulse c (lastBit bytes)) := by
  have hpos : 0 < bytes.length := List.length_pos_iff.mpr h
  rw [List.getLast?_eq_getElem?, frameOf_length, frameOf, injectReset,
    List.getElem?_set_self (by rw [serializeBytes_length]; omega)]

/-- R141: either reset variant is high for its bit's time and then low for the reset window. -/
theorem resetPulse_canonical (tick : Nat) (t : Timing) (bit : Bool) :
    resetPulse (canonical tick t) bit = pulse (ticks tick (if bit then t.t1h else t.t0h)) (ticks tick t.resetNs) := by
  cases bit <;> rfl

theorem endsInReset_frameOf (tick : Nat) (t : Timing) {bytes : List Byte} (h : bytes ≠ []) :
    endsInReset tick t (frameOf (canonical tick t) bytes) = true := by
  simp only [endsInReset, frameOf_getLast? _ h, resetPulse_canonical, pulse, decide_true]

/-- R33, R144: under the invariant a strip's frame has 24 descriptors an LED. -/
theorem Ctx.Inv.frameOf_length {c : Ctx} (h : c.Inv) {wire : Memory Byte} (hw : c.wire = some wire)
    {bytes : List Byte} (hb : wireBytes wire = some bytes) (p : Canonical) :
    (frameOf p bytes).length = 24 * c.length.toNat := by
  rw [Machine.frameOf_length, wireBytes_length hb, h.wireSize wire hw]
  omega

/-- Settles O43: with the checks passed, the allocator's answer alone decides between the frame and none. -/
theorem encodeUnderEveryAnswer : Obligations.EncodeUnderEveryAnswer := by
  intro s hinv hl hcells hr
  obtain ⟨-, wire, -, hw⟩ := hinv.ctx.memories_of_created hl
  obtain ⟨bytes, hb⟩ := wireBytes_isSome (hcells wire hw)
  have hsize := hinv.ctx.wire_size_ne_zero hl hw
  obtain ⟨o, -, h | h⟩ := exec_encode_strip_cases hl hw hsize hr hb
  · exact ⟨_, h, .inr ⟨rfl, rfl⟩⟩
  · exact ⟨_, h, .inl ⟨_, rfl, rfl, hinv.ctx.frameOf_length hw hb _,
      endsInReset_frameOf _ _ (ne_nil_of_wireBytes hb hsize)⟩⟩

/-! ### The source's way of choosing the reset variant -/

/-- The last serialized descriptor is that of the raw last bit. -/
theorem serializeBytes_getElem?_last (c : Canonical) {bytes : List Byte} (h : bytes ≠ []) :
    (serializeBytes c bytes)[8 * bytes.length - 1]? = some (bitPulse c (lastBit bytes)) := by
  have hpos : 0 < bytes.length := List.length_pos_iff.mpr h
  have hv : bytes[bytes.length - 1]? = some (bytes[bytes.length - 1]'(by omega)) := List.getElem?_eq_getElem _
  rw [serializeBytes_getElem?, show (8 * bytes.length - 1) / 8 = bytes.length - 1 by omega,
    show 7 - (8 * bytes.length - 1) % 8 = 0 by omega, hv, lastBit_eq hv]
  rfl

/-- R143: where PD0 and PD1 are equal their reset variants are too, so comparing with PD1 picks the variant of the bit. -/
theorem resetPulse_eq_of_compare (tick : Nat) (t : Timing) (bit : Bool) :
    resetPulse (canonical tick t) bit =
      if bitPulse (canonical tick t) bit = (canonical tick t).pd1 then (canonical tick t).pd1r
        else (canonical tick t).pd0r := by
  cases bit with
  | true => exact (if_pos rfl).symm
  | false =>
    split
    · rename_i heq
      have hhigh : ticks tick t.t0h = ticks tick t.t1h := congrArg PulseDescriptor.duration0 heq
      simp [resetPulse, canonical, hhigh]
    · rfl

/-- A real device type holds a one's line high at least twice as long as a zero's. -/
theorem two_mul_t0h_le_t1h {t : DeviceType} (h : t ≠ .none) :
    2 * (timingOf t).t0h.toNat ≤ (timingOf t).t1h.toNat := by
  cases t with
  | none => exact absurd rfl h
  | _ => decide

/-- R143: representable, a real type's zero and one differ in their high part. -/
theorem pd0_ne_pd1_of_representable {tick : Nat} {t : DeviceType} (ht : t ≠ .none)
    (hr : representable tick (timingOf t) = true) :
    (canonical tick (timingOf t)).pd0 ≠ (canonical tick (timingOf t)).pd1 := by
  intro heq
  have hhigh : ticks tick (timingOf t).t0h = ticks tick (timingOf t).t1h := congrArg PulseDescriptor.duration0 heq
  have hpos : 1 ≤ ticks tick (timingOf t).t0h := by
    simp only [representable, Bool.and_eq_true, durationFits_iff] at hr
    omega
  have hdouble : 2 * ticks tick (timingOf t).t0h ≤ ticks tick (timingOf t).t1h :=
    (Nat.mul_div_le_mul_div_assoc 2 _ tick).trans (Nat.div_le_div_right (two_mul_t0h_le_t1h ht))
  omega

/-- Settles O45: the injector's element is the variant the comparison picks. -/
theorem injectorMethodsAgree : Obligations.InjectorMethodsAgree := by
  refine ⟨fun tick t bytes h => ?_, fun _ _ => pd0_ne_pd1_of_representable⟩
  simp only [serializeBytes_getElem?_last _ h, Option.some.injEq, ← resetPulse_eq_of_compare]
  rfl

end Sys2Proof.Machine
end

section
/-! BIND and TRANSMIT, one equation for each case of their rules (42_transmitter.md R171 to R180), and the commands that
need a Created strip. -/

namespace Sys2Proof.Machine

/-! ### The peripheral's calls -/

/-- R172: where every call's queued answer is ok, all of them are made, in order. -/
theorem callAll_of_all_ok {calls : List PeriphCall} {s : State} {rest : List PeriphAnswer}
    (h : s.oracles.periph = List.replicate calls.length .ok ++ rest) :
    callAll calls s = (none, s.withOracles
      { s.oracles with periph := rest, asked := s.oracles.asked ++ calls.map .periph }) := by
  induction calls generalizing s with
  | nil =>
    have hrest : s.oracles.periph = rest := h
    simp [callAll, ← hrest, State.withOracles]
  | cons c calls ih =>
    simp only [callAll, drawPeriph_queued h]
    rw [ih rfl]
    simp [State.withOracles]

/-- R172: where the first `k` queued answers are ok and the next is an error, the call it answers is the last one made. -/
theorem callAll_of_failure {calls : List PeriphCall} {s : State} {rest : List PeriphAnswer} {k : Nat}
    {call : PeriphCall} {code : BitVec 32} (hcall : calls[k]? = some call)
    (h : s.oracles.periph = List.replicate k .ok ++ .err code :: rest) :
    callAll calls s = (some (call.op, code), s.withOracles
      { s.oracles with periph := rest, asked := s.oracles.asked ++ (calls.take (k + 1)).map .periph }) := by
  induction calls generalizing s k with
  | nil => simp at hcall
  | cons c calls ih =>
    cases k with
    | zero =>
      obtain rfl : c = call := by simpa using hcall
      simp only [callAll, drawPeriph_queued h]
      simp
    | succ k =>
      simp only [callAll, drawPeriph_queued h]
      rw [ih (k := k) (by simpa using hcall) rfl]
      simp [State.withOracles]

/-- R14: a draw of the peripheral changes the oracles alone, where it is recorded. -/
theorem drawPeriph_fst_snd (c : PeriphCall) (s : State) :
    ∃ a, ∃ o : Oracles, o.asked = s.oracles.asked ++ [.periph c] ∧ drawPeriph c s = (a, s.withOracles o) :=
  ⟨_, _, drawPeriph_asked c s, Prod.ext rfl (drawPeriph_state c s)⟩

/-- Calls only add to what has been asked. -/
theorem callAll_asked (calls : List PeriphCall) (s : State) :
    s.oracles.asked <+: (callAll calls s).2.oracles.asked := by
  induction calls generalizing s with
  | nil => exact List.prefix_rfl
  | cons c calls ih =>
    obtain ⟨a, o, ho, hdraw⟩ := drawPeriph_fst_snd c s
    have hfirst : s.oracles.asked <+: o.asked := ho ▸ List.prefix_append _ _
    simp only [callAll, hdraw]
    cases a with
    | ok => exact hfirst.trans (ih (s.withOracles o))
    | err code => exact hfirst

/-- R172: calls end with all made or one failed, and change the oracles alone. -/
theorem callAll_fst_snd (calls : List PeriphCall) (s : State) :
    ∃ failure, ∃ o : Oracles, s.oracles.asked <+: o.asked ∧ callAll calls s = (failure, s.withOracles o) :=
  ⟨_, _, callAll_asked calls s, Prod.ext rfl (callAll_state calls s)⟩

/-! ### BIND -/

section Bind
variable {s s₁ : State} {pin chan : Byte}

theorem exec_bind_strip_of_all_ok (h : callAll (bindCalls s.params.divider pin chan) (s.setBound none) = (none, s₁)) :
    exec (.bind .strip pin chan) s = .next ((s₁.setBound (some (pin, chan))).report .ok) := by
  change execBind .strip pin chan s = _
  simp only [execBind, h, finish]

theorem exec_bind_strip_of_failure {op : PeriphOp} {code : BitVec 32}
    (h : callAll (bindCalls s.params.divider pin chan) (s.setBound none) = (some (op, code), s₁)) :
    exec (.bind .strip pin chan) s = .next (s₁.report (.peripheralError op code)) := by
  change execBind .strip pin chan s = _
  simp only [execBind, h, finish]

end Bind

/-- R171, R173: none of BIND's calls is a write. -/
theorem op_ne_write_of_mem_bindCalls {divider : Nat} {pin chan : Byte} {op : PeriphOp}
    (h : op ∈ (bindCalls divider pin chan).map PeriphCall.op) : op ≠ .write := by
  rintro rfl
  simp [bindCalls, PeriphCall.op] at h

/-- R172: what BIND answers, under every answer of the peripheral. -/
theorem exec_bind_strip_cases (s : State) (pin chan : Byte) :
    ∃ o : Oracles, s.oracles.asked <+: o.asked ∧
      ((∃ op code, op ≠ PeriphOp.write ∧ exec (.bind .strip pin chan) s =
          .next (((s.withOracles o).setBound none).report (.peripheralError op code))) ∨
        exec (.bind .strip pin chan) s =
          .next (((s.withOracles o).setBound (some (pin, chan))).report .ok)) := by
  obtain ⟨failure, o, ho, hcalls⟩ := callAll_fst_snd (bindCalls s.params.divider pin chan) (s.setBound none)
  refine ⟨o, ho, ?_⟩
  cases failure with
  | none => exact .inr (exec_bind_strip_of_all_ok (s₁ := (s.setBound none).withOracles o) hcalls)
  | some failed =>
    obtain ⟨op, code⟩ := failed
    exact .inl ⟨op, code, op_ne_write_of_mem_bindCalls (callAll_failed (congrArg Prod.fst hcalls)),
      exec_bind_strip_of_failure (s₁ := (s.setBound none).withOracles o) hcalls⟩

/-- Settles O47: the five queued answers are the five calls'. -/
theorem bindCompletes : Obligations.BindCompletes := by
  intro s pin chan rest h
  rw [exec_bind_strip_of_all_ok (callAll_of_all_ok (rest := rest) h)]
  rfl

/-- Settles O48: the `k` answers before the error are those of the calls before it. -/
theorem bindStopsAtFirstFailure : Obligations.BindStopsAtFirstFailure := by
  intro s pin chan code rest k call hcall h
  exact exec_bind_strip_of_failure (callAll_of_failure (s := s.setBound none) hcall h)

/-- Settles O49: all five calls succeed, or one that is no write fails. -/
theorem bindUnderEveryAnswer : Obligations.BindUnderEveryAnswer := by
  intro s pin chan
  obtain ⟨o, -, ⟨op, code, hop, h⟩ | h⟩ := exec_bind_strip_cases s pin chan
  · exact ⟨_, h, rfl, .inr ⟨op, code, hop, rfl, rfl⟩⟩
  · exact ⟨_, h, rfl, .inl ⟨rfl, rfl⟩⟩

/-! ### TRANSMIT -/

theorem exec_transmit_strip_of_not_created {s : State} (hl : s.ctx.lifecycle ≠ .created) :
    exec (.transmit .strip) s = .next (s.report (.invalidArgument .state)) := if_pos hl

section Transmit
variable {s : State} (hl : s.ctx.lifecycle = .created)
include hl

theorem exec_transmit_strip_of_unbound (hb : s.ctx.bound = none) : exec (.transmit .strip) s = .fault .unbound := by
  change execTransmit .strip s = _
  simp only [execTransmit, hl, ne_eq, not_true_eq_false, if_false, hb]

variable {pin chan : Byte} (hb : s.ctx.bound = some (pin, chan))
include hb

theorem exec_transmit_strip_of_not_encoded (htx : s.ctx.txbuf = none) :
    exec (.transmit .strip) s = .fault .notEncoded := by
  change execTransmit .strip s = _
  simp only [execTransmit, hl, ne_eq, not_true_eq_false, if_false, hb, htx]

variable {seq : List PulseDescriptor} (htx : s.ctx.txbuf = some seq)
include htx

theorem exec_transmit_strip_of_write_error {s₁ s₂ : State} {code : BitVec 32} {part : List PulseDescriptor}
    (hwrite : drawPeriph (.write chan seq true) s = (.err code, s₁)) (hpart : drawLeading seq s₁ = (part, s₂)) :
    exec (.transmit .strip) s =
      .next (((s₂.emit (.emittedPartial chan part code)).setTxbuf none).report (.peripheralError .write code)) := by
  change execTransmit .strip s = _
  simp only [execTransmit, hl, ne_eq, not_true_eq_false, if_false, hb, htx, hwrite, hpart, finish]

/-- R177, R178: what a TRANSMIT that reaches the write answers, under every answer of the peripheral. -/
theorem exec_transmit_strip_cases :
    ∃ o : Oracles, s.oracles.asked <+: o.asked ∧
      (exec (.transmit .strip) s =
          .next ((((s.withOracles o).emit (.emitted chan seq)).setTxbuf none).report .ok) ∨
        ∃ part code, part <+: seq ∧ exec (.transmit .strip) s =
          .next ((((s.withOracles o).emit (.emittedPartial chan part code)).setTxbuf none).report
            (.peripheralError .write code))) := by
  obtain ⟨a, o₁, ho₁, hwrite⟩ := drawPeriph_fst_snd (.write chan seq true) s
  have hfirst : s.oracles.asked <+: o₁.asked := ho₁ ▸ List.prefix_append _ _
  cases a with
  | ok => exact ⟨o₁, hfirst, .inl (exec_transmit_strip_of_write_ok hl hb htx hwrite)⟩
  | err code =>
    have hpart : drawLeading seq (s.withOracles o₁) = (_, s.withOracles _) :=
      Prod.ext rfl (drawLeading_state seq (s.withOracles o₁))
    have hprefix : (drawLeading seq (s.withOracles o₁)).1 <+: seq := by
      obtain ⟨n, hn⟩ := drawLeading_take seq (s.withOracles o₁)
      exact hn ▸ List.take_prefix n seq
    refine ⟨_, hfirst.trans ?_, .inr ⟨_, code, hprefix, exec_transmit_strip_of_write_error hl hb htx hwrite hpart⟩⟩
    rw [drawLeading_asked]
    exact List.prefix_append _ _

end Transmit

/-- Settles O51: the queued answers are the write's and the leading part's. -/
theorem transmitReportsFailure : Obligations.TransmitReportsFailure := by
  intro s pin chan seq code rest n more hl hb htx hperiph hleading
  rw [exec_transmit_strip_of_write_error hl hb htx (drawPeriph_queued hperiph) (drawLeading_queued hleading)]
  simp [State.report, State.emit, State.setCtx, State.withOracles]

/-- Settles O52: the write's answer decides, and every leading draw answers a part of the sequence. -/
theorem transmitUnderEveryAnswer : Obligations.TransmitUnderEveryAnswer := by
  intro s pin chan seq hl hb htx
  obtain ⟨o, -, h | ⟨part, code, hpart, h⟩⟩ := exec_transmit_strip_cases hl hb htx
  · exact ⟨_, h, rfl, .inl ⟨rfl, rfl⟩⟩
  · exact ⟨_, h, rfl, .inr ⟨part, code, hpart, rfl, rfl⟩⟩

/-- Settles O53: BOUND is checked before TXBUF. -/
theorem transmitFaults : Obligations.TransmitFaults := by
  refine fun s hl => ⟨exec_transmit_strip_of_unbound hl, fun hbound htx => ?_⟩
  obtain ⟨⟨pin, chan⟩, hb⟩ := Option.isSome_iff_exists.mp hbound
  exact exec_transmit_strip_of_not_encoded hl hb htx

/-! ### A strip that is not Created -/

/-- R44(d): under the invariant a strip that is not Created has no frame. -/
theorem Ctx.Inv.txbuf_eq_none {c : Ctx} (h : c.Inv) (hl : c.lifecycle ≠ .created) : c.txbuf = none :=
  Option.eq_none_iff_forall_ne_some.mpr fun seq htx => hl (h.txSize seq htx).1

theorem State.setTxbuf_self {s : State} {tx : Option (List PulseDescriptor)} (h : s.ctx.txbuf = tx) :
    s.setTxbuf tx = s := by
  rw [State.setTxbuf_eq, ← h]
  rfl

/-- Settles O25: the three commands check the lifecycle first, and under the invariant TXBUF is Absent already. -/
theorem notCreatedIsStateError : Obligations.NotCreatedIsStateError := by
  intro s hl
  have hencode := exec_encode_strip_of_not_created hl
  refine ⟨exec_fillBuffer_strip_of_not_created hl, hencode, exec_transmit_strip_of_not_created hl, fun hinv => ?_⟩
  rw [hencode, State.setTxbuf_self (hinv.ctx.txbuf_eq_none hl)]
  rfl

end Sys2Proof.Machine
end

section
/-! What a command can leave when it answers a next state, told once for all ten, and the invariants that follow
(10_state.md R24 to R44, 41_protocol_encoder.md R137, R145, 60_exceptions.md R205). -/

namespace Sys2Proof.Machine

/-! ### The effect of a command -/

/-- The state a command leaves: a context, new events, oracles and one more result, everything else as it was. -/
def State.commit (s : State) (c : Ctx) (es : List Event) (o : Oracles) (r : Result) : State :=
  { s with ctx := c, trace := s.trace ++ es, oracles := o, results := s.results ++ [r] }

theorem State.report_eq_commit (s : State) (r : Result) : s.report r = s.commit s.ctx [] s.oracles r := by
  simp [State.report, State.commit]

/-- `Effect s i r c es o`: from state `s`, instruction `i` may answer result `r` and leave context `c`, events `es` and
oracles `o`. One constructor for each way a command's rule changes the state. -/
inductive Effect (s : State) : Instr → Result → Ctx → List Event → Oracles → Prop
  /-- A query, a command with nothing to do, or an error found before anything was done. -/
  | unchanged {i : Instr} {r : Result} (hencode : i ≠ .encode .strip) (hbind : ∀ pin chan, i ≠ .bind .strip pin chan)
      (htransmit : i = .transmit .strip → r = .invalidArgument .state) : Effect s i r s.ctx [] s.oracles
  | nulled (hl : s.ctx.lifecycle ≠ .created) : Effect s (.initStrip .strip) .ok s.ctx.null [] s.oracles
  | createFailed {d : DType} {len : BitVec 16} {maxc : Byte} {k : AllocKind} {o : Oracles}
      (ho : s.oracles.asked <+: o.asked) : Effect s (.create .strip d len maxc) (.outOfMemory k) s.ctx [] o
  | created {t : DeviceType} {len : BitVec 16} {maxc : Byte} {o : Oracles} (hl : s.ctx.lifecycle = .uninitialized)
      (ht : t ≠ .none) (hlen : len ≠ 0) (ho : s.oracles.asked <+: o.asked) :
      Effect s (.create .strip (.known t) len maxc) .ok (s.ctx.create t len maxc) [] o
  | destroyed (hl : s.ctx.lifecycle = .created) :
      Effect s (.destroy .strip) .ok { s.ctx.null with lifecycle := .destroyed } [] s.oracles
  | pixelSet {pix : Memory Pixel} {idx : BitVec 16} {r g b : Byte} (hl : s.ctx.lifecycle = .created)
      (hp : s.ctx.pixels = some pix) :
      Effect s (.setPixel .strip idx r g b) .ok { s.ctx with pixels := some (writePixel pix idx.toNat ⟨r, g, b⟩) } []
        s.oracles
  | filled {pix : Memory Pixel} {wire : Memory Byte} (hl : s.ctx.lifecycle = .created)
      (hp : s.ctx.pixels = some pix) (hw : s.ctx.wire = some wire) :
      Effect s (.fillBuffer .strip) .ok { s.ctx with wire := some (serializePixels pix wire s.ctx.length.toNat) } []
        s.oracles
  | encodeFailed {r : Result} {o : Oracles} (hr : r ≠ .invalidArgument .handle) (ho : s.oracles.asked <+: o.asked) :
      Effect s (.encode .strip) r { s.ctx with txbuf := none } [] o
  | encoded {wire : Memory Byte} {bytes : List Byte} {o : Oracles} (hl : s.ctx.lifecycle = .created)
      (hw : s.ctx.wire = some wire) (hsize : wire.size ≠ 0)
      (hr : representable s.params.tickNs s.ctx.timing = true) (hb : wireBytes wire = some bytes)
      (ho : s.oracles.asked <+: o.asked) :
      Effect s (.encode .strip) .ok
        { s.ctx with txbuf := some (frameOf (canonical s.params.tickNs s.ctx.timing) bytes) } [] o
  | bindFailed {pin chan : Byte} {op : PeriphOp} {code : BitVec 32} {o : Oracles}
      (ho : s.oracles.asked <+: o.asked) :
      Effect s (.bind .strip pin chan) (.peripheralError op code) { s.ctx with bound := none } [] o
  | bound {pin chan : Byte} {o : Oracles} (ho : s.oracles.asked <+: o.asked) :
      Effect s (.bind .strip pin chan) .ok { s.ctx with bound := some (pin, chan) } [] o
  | sent {chan : Byte} {seq : List PulseDescriptor} {o : Oracles} (hl : s.ctx.lifecycle = .created)
      (htx : s.ctx.txbuf = some seq) (ho : s.oracles.asked <+: o.asked) :
      Effect s (.transmit .strip) .ok { s.ctx with txbuf := none } [.emitted chan seq] o
  | partSent {chan : Byte} {seq part : List PulseDescriptor} {code : BitVec 32} {o : Oracles}
      (hl : s.ctx.lifecycle = .created) (htx : s.ctx.txbuf = some seq) (hpart : part <+: seq)
      (ho : s.oracles.asked <+: o.asked) :
      Effect s (.transmit .strip) (.peripheralError .write code) { s.ctx with txbuf := none }
        [.emittedPartial chan part code] o

/-- `t` is what some effect of `i` leaves. -/
def HasEffect (s : State) (i : Instr) (t : State) : Prop :=
  ∃ r c es o, Effect s i r c es o ∧ t = s.commit c es o r

theorem HasEffect.of_unchanged {s : State} {i : Instr} {r : Result} (hencode : i ≠ .encode .strip := by simp)
    (hbind : ∀ pin chan, i ≠ .bind .strip pin chan := by simp)
    (htransmit : i = .transmit .strip → r = .invalidArgument .state := by simp) : HasEffect s i (s.report r) :=
  ⟨r, _, _, _, .unchanged hencode hbind htransmit, s.report_eq_commit r⟩

/-- An effect that emits nothing leaves its context, oracles and result. -/
theorem HasEffect.of_silent {s : State} {i : Instr} {r : Result} {c : Ctx} {o : Oracles}
    (h : Effect s i r c [] o) : HasEffect s i (((s.withOracles o).setCtx c).report r) :=
  ⟨r, c, [], o, h, by simp [State.report, State.setCtx, State.withOracles, State.commit]⟩

/-! Each drawing command's cases are those of its equations; the others' are those of their inversion lemmas. -/

theorem hasEffect_create {d : DType} {len : BitVec 16} {maxc : Byte} {s t : State}
    (h : exec (.create .strip d len maxc) s = .next t) : HasEffect s (.create .strip d len maxc) t := by
  by_cases hl : s.ctx.lifecycle = .uninitialized
  case neg => rw [exec_create_strip_of_not_uninitialized hl] at h; cases h
  cases hd : realDevice? d with
  | none =>
    rw [exec_create_strip_of_unreal hl maxc hd] at h
    cases h
    exact .of_unchanged
  | some dt =>
    obtain ⟨rfl, ht⟩ := realDevice?_eq_some.mp hd
    by_cases hlen : len = 0
    · rw [hlen, exec_create_strip_of_no_leds hl maxc ht] at h
      cases h
      exact .of_unchanged
    · obtain ⟨o, ho, h' | h' | h'⟩ := exec_create_strip_cases maxc hl ht hlen <;>
        rw [h'] at h <;> cases h
      · exact .of_silent (.createFailed ho)
      · exact .of_silent (.createFailed ho)
      · exact .of_silent (.created hl ht hlen ho)

theorem hasEffect_encode {s t : State} (h : exec (.encode .strip) s = .next t) : HasEffect s (.encode .strip) t := by
  have failed {r : Result} (hr : r ≠ .invalidArgument .handle) :
      HasEffect s (.encode .strip) ((s.setTxbuf none).report r) := .of_silent (.encodeFailed hr List.prefix_rfl)
  cases hw? : createdWire? s.ctx with
  | none =>
    rw [exec_encode_strip_of_no_wire hw?] at h
    cases h
    exact failed (by simp)
  | some wire =>
    obtain ⟨hl, hw⟩ := createdWire?_eq_some.mp hw?
    by_cases hsize : wire.size = 0
    · rw [exec_encode_strip_of_empty hl hw hsize] at h
      cases h
      exact failed (by simp)
    · cases hr : representable s.params.tickNs s.ctx.timing with
      | false => rw [exec_encode_strip_of_unrepresentable hl hw hsize hr] at h; cases h
      | true =>
        cases hb : wireBytes wire with
        | none => rw [exec_encode_strip_of_unwritten hl hw hsize hr hb] at h; cases h
        | some bytes =>
          obtain ⟨o, ho, h' | h'⟩ := exec_encode_strip_cases hl hw hsize hr hb <;> rw [h'] at h <;> cases h
          · exact .of_silent (.encodeFailed (by simp) ho)
          · exact .of_silent (.encoded hl hw hsize hr hb ho)

theorem hasEffect_bind {pin chan : Byte} {s t : State} (h : exec (.bind .strip pin chan) s = .next t) :
    HasEffect s (.bind .strip pin chan) t := by
  obtain ⟨o, ho, ⟨op, code, -, h'⟩ | h'⟩ := exec_bind_strip_cases s pin chan <;> rw [h'] at h <;> cases h
  · exact .of_silent (.bindFailed ho)
  · exact .of_silent (.bound ho)

theorem hasEffect_transmit {s t : State} (h : exec (.transmit .strip) s = .next t) :
    HasEffect s (.transmit .strip) t := by
  by_cases hl : s.ctx.lifecycle = .created
  case neg =>
    rw [exec_transmit_strip_of_not_created hl] at h
    cases h
    exact .of_unchanged (htransmit := fun _ => rfl)
  cases hb : s.ctx.bound with
  | none => rw [exec_transmit_strip_of_unbound hl hb] at h; cases h
  | some pc =>
    obtain ⟨pin, chan⟩ := pc
    cases htx : s.ctx.txbuf with
    | none => rw [exec_transmit_strip_of_not_encoded hl hb htx] at h; cases h
    | some seq =>
      obtain ⟨o, ho, h' | ⟨part, code, hpart, h'⟩⟩ := exec_transmit_strip_cases hl hb htx <;> rw [h'] at h <;> cases h
      · exact ⟨_, _, _, o, .sent hl htx ho, rfl⟩
      · exact ⟨_, _, _, o, .partSent hl htx hpart ho, rfl⟩

/-- Every next state a command answers is what one of its effects leaves. -/
theorem exec_hasEffect {i : Instr} {s t : State} (h : exec i s = .next t) : HasEffect s i t := by
  cases i with
  | initStrip hd =>
    obtain ⟨rfl, rfl⟩ | ⟨rfl, hl, rfl⟩ := execInitStrip_next h
    · exact .of_unchanged
    · exact .of_silent (.nulled hl)
  | create hd d len maxc =>
    cases hd with
    | null => cases h; exact .of_unchanged
    | strip => exact hasEffect_create h
  | destroy hd =>
    obtain ⟨rfl, rfl⟩ | ⟨rfl, -, rfl⟩ | ⟨rfl, hl, rfl⟩ := execDestroy_next h
    · exact .of_unchanged
    · exact .of_unchanged
    · exact .of_silent (.destroyed hl)
  | setPixel hd idx r g b =>
    obtain ⟨pix, rfl, hl, hp, -, rfl⟩ := execSetPixel_next h
    exact .of_silent (.pixelSet hl hp)
  | fillBuffer hd =>
    obtain ⟨r, -, rfl⟩ | ⟨pix, wire, rfl, hl, hp, hw, rfl⟩ := execFillBuffer_next h
    · exact .of_unchanged
    · exact .of_silent (.filled hl hp hw)
  | setTimings d =>
    obtain ⟨r, rfl⟩ := execSetTimings_next h
    exact .of_unchanged
  | derivePulses hd =>
    obtain ⟨r, rfl⟩ := execDerivePulses_next h
    exact .of_unchanged
  | encode hd =>
    cases hd with
    | null => cases h; exact .of_unchanged
    | strip => exact hasEffect_encode h
  | bind hd pin chan =>
    cases hd with
    | null => cases h; exact .of_unchanged
    | strip => exact hasEffect_bind h
  | transmit hd =>
    cases hd with
    | null => cases h; exact .of_unchanged
    | strip => exact hasEffect_transmit h

/-- R64, R219: a step that answers a next state is idle, or leaves an effect of one instruction. -/
theorem step_hasEffect {s t : State} (h : step s = .next t) :
    t = s ∨ ∃ rest i, HasEffect { s with commands := rest } i t := by
  obtain ⟨-, -, ⟨-, rfl⟩ | ⟨w, rest, i, -, -, hexec⟩⟩ := step_next h
  · exact .inl rfl
  · exact .inr ⟨rest, i, exec_hasEffect hexec⟩

end Sys2Proof.Machine
end

section
/-! The invariants of the context and of the signal, kept by every effect and so by every step (10_state.md R31 to R44,
41_protocol_encoder.md R137, R145). -/

namespace Sys2Proof.Machine

/-! ### The context's invariant under each update -/

/-- R44(c): a context in the null state that is not Created meets the invariant. -/
theorem Ctx.inv_of_null {c : Ctx} (hl : c.lifecycle ≠ .created) (hnull : c.isNull) : c.Inv := by
  obtain ⟨hd, hlen, hmaxc, htiming, hp, hw, htx⟩ := c.isNull_iff.mp hnull
  exact {
    createdIff := by simp [hl, hp]
    together := by simp [hp, hw]
    realType := fun h => absurd h hl
    someLed := fun h => absurd h hl
    pixSize := by simp [hp]
    wireSize := by simp [hw]
    nullIff := by simp [hl, hnull]
    txSize := by simp [htx]
    timingRow := by simp [htiming, hd]
    pixForm := by simp [hp]
    wireForm := by simp [hw] }

/-- R104: the context CREATE leaves meets the invariant. -/
theorem Ctx.inv_create (c : Ctx) {t : DeviceType} (ht : t ≠ .none) {len : BitVec 16} (hlen : len ≠ 0) (maxc : Byte) :
    (c.create t len maxc).Inv where
  createdIff := by simp
  together := by simp
  realType := fun _ => ht
  someLed := fun _ => hlen
  pixSize := by rintro m ⟨⟩; rfl
  wireSize := by rintro m ⟨⟩; simp [bytesPerLed_of_real ht, Nat.mul_comm]
  nullIff := by simp [Ctx.isNull_iff]
  txSize := by simp
  timingRow := rfl
  pixForm := by rintro m ⟨⟩; exact pixWf_fresh _
  wireForm := by rintro m ⟨⟩; exact wireWf_fresh _

section Updates
variable {c : Ctx} (h : c.Inv)
include h

theorem Ctx.Inv.setPixels (hl : c.lifecycle = .created) {m : Memory Pixel} (hsize : m.size = c.length.toNat)
    (hform : pixWf m) : ({ c with pixels := some m } : Ctx).Inv :=
  { h with
    createdIff := by simp [hl, (h.createdIff.mp hl).2]
    together := by simp [(h.createdIff.mp hl).2]
    nullIff := by simp [hl, Ctx.isNull_iff]
    pixSize := by rintro m ⟨⟩; exact hsize
    pixForm := by rintro m ⟨⟩; exact hform }

theorem Ctx.Inv.setWire (hl : c.lifecycle = .created) {m : Memory Byte} (hsize : m.size = 3 * c.length.toNat)
    (hform : wireWf m) : ({ c with wire := some m } : Ctx).Inv :=
  { h with
    createdIff := by simp [hl, (h.createdIff.mp hl).1]
    together := by simp [(h.createdIff.mp hl).1]
    nullIff := by simp [hl, Ctx.isNull_iff]
    wireSize := by rintro m ⟨⟩; exact hsize
    wireForm := by rintro m ⟨⟩; exact hform }

theorem Ctx.Inv.setTxbuf {seq : List PulseDescriptor} (hl : c.lifecycle = .created)
    (hlen : seq.length = 24 * c.length.toNat) : ({ c with txbuf := some seq } : Ctx).Inv :=
  { h with
    nullIff := by simp [hl, Ctx.isNull_iff]
    txSize := by rintro _ ⟨⟩; exact ⟨hl, hlen⟩ }

theorem Ctx.Inv.dropTxbuf : ({ c with txbuf := none } : Ctx).Inv := by
  by_cases hl : c.lifecycle = .created
  · obtain ⟨pix, -, hp, -⟩ := h.memories_of_created hl
    exact { h with
      nullIff := by simp [hl, hp, Ctx.isNull_iff]
      txSize := by simp }
  · have hsame : { c with txbuf := none } = c := by rw [← h.txbuf_eq_none hl]
    exact hsame.symm ▸ h

theorem Ctx.Inv.setBound (b : Option (Byte × Byte)) : ({ c with bound := b } : Ctx).Inv :=
  { h with nullIff := by rw [h.nullIff, Ctx.isNull_iff, Ctx.isNull_iff] }

end Updates

/-- R31 to R34, R44: every effect keeps the context's invariant. -/
theorem Effect.keeps_inv {s : State} {i : Instr} {r : Result} {c : Ctx} {es : List Event} {o : Oracles}
    (he : Effect s i r c es o) (h : s.ctx.Inv) : c.Inv := by
  cases he with
  | unchanged => exact h
  | nulled hl => exact (h.null_eq_self hl).symm ▸ h
  | createFailed => exact h
  | created _ ht hlen => exact s.ctx.inv_create ht hlen _
  | destroyed => exact Ctx.inv_of_null (by simp) rfl
  | pixelSet hl hp =>
    exact h.setPixels hl (by rw [writePixel_size, h.pixSize _ hp]) (pixWf_writePixel (h.pixForm _ hp) _ _)
  | filled hl _ hw =>
    exact h.setWire hl (by rw [serializePixels_size, h.wireSize _ hw])
      (wireWf_serializePixels _ (h.wireForm _ hw) _)
  | encodeFailed => exact h.dropTxbuf
  | encoded hl hw _ _ hb => exact h.setTxbuf hl (h.frameOf_length hw hb _)
  | bindFailed => exact h.setBound none
  | bound => exact h.setBound _
  | sent => exact h.dropTxbuf
  | partSent => exact h.dropTxbuf

theorem HasEffect.keeps_inv {s t : State} {i : Instr} (he : HasEffect s i t) (h : s.Inv) : t.Inv := by
  obtain ⟨r, c, es, o, he, rfl⟩ := he
  exact ⟨he.keeps_inv h.ctx, h.tick⟩

/-- Settles O15: a step is idle or leaves an effect of one command, and every effect keeps the invariant. -/
theorem stepKeepsInv : Obligations.StepKeepsInv := by
  intro s t h hstep
  obtain rfl | ⟨rest, i, he⟩ := step_hasEffect hstep
  · exact h
  · exact he.keeps_inv ⟨h.ctx, h.tick⟩

/-! ### The signal's invariant -/

/-- R137: where the timing is representable, no descriptor of a frame is malformed. -/
theorem frameOf_sound {tick : Nat} {t : Timing} (hr : representable tick t = true) (bytes : List Byte) :
    (frameOf (canonical tick t) bytes).all pulseSound = true := by
  obtain ⟨h0, h1, h0r, h1r⟩ := canonical_sound hr
  refine List.all_eq_true.mpr fun pd hpd => ?_
  rcases mem_frameOf hpd with rfl | rfl | rfl | rfl
  · exact h0
  · exact h1
  · exact h0r
  · exact h1r

section Signal
variable {s : State} {i : Instr} {r : Result} {c : Ctx} {es : List Event} {o : Oracles} (he : Effect s i r c es o)
include he

/-- R137, R145: every effect leaves a sound frame in TXBUF, or none. -/
theorem Effect.txbuf_sound (hs : s.SignalSound) {seq : List PulseDescriptor} (htx : c.txbuf = some seq) :
    seq.all pulseSound ∧ endsInReset s.params.tickNs c.timing seq := by
  cases he with
  | unchanged => exact hs.encoded seq htx
  | nulled => cases htx
  | createFailed => exact hs.encoded seq htx
  | created => cases htx
  | destroyed => cases htx
  | pixelSet => exact hs.encoded seq htx
  | filled => exact hs.encoded seq htx
  | encodeFailed => cases htx
  | encoded _ _ hsize hr hb =>
    cases htx
    exact ⟨frameOf_sound hr _, endsInReset_frameOf _ _ (ne_nil_of_wireBytes hb hsize)⟩
  | bindFailed => exact hs.encoded seq htx
  | bound => exact hs.encoded seq htx
  | sent => cases htx
  | partSent => cases htx

/-- R177, R178: what an effect emits is the frame in TXBUF, or a leading part of it. -/
theorem Effect.emits_txbuf {e : Event} (hmem : e ∈ es) :
    s.ctx.lifecycle = .created ∧ ∃ seq, s.ctx.txbuf = some seq ∧ e.sent <+: seq ∧
      ∀ chan sent, e = .emitted chan sent → sent = seq := by
  cases he with
  | sent hl htx =>
    obtain rfl := List.mem_singleton.mp hmem
    exact ⟨hl, _, htx, List.prefix_rfl, by rintro chan sent ⟨⟩; rfl⟩
  | partSent hl htx hpart =>
    obtain rfl := List.mem_singleton.mp hmem
    exact ⟨hl, _, htx, hpart, by simp⟩
  | _ => exact absurd hmem List.not_mem_nil

end Signal

theorem HasEffect.keeps_signalSound {s t : State} {i : Instr} (he : HasEffect s i t) (h : s.Inv)
    (hs : s.SignalSound) : t.SignalSound := by
  obtain ⟨r, c, es, o, he, rfl⟩ := he
  refine ⟨fun seq htx => he.txbuf_sound hs htx, fun e hmem => ?_, fun chan seq hmem => ?_⟩
  · obtain hold | hnew := List.mem_append.mp hmem
    · exact hs.sent e hold
    · obtain ⟨-, seq, htx, hpart, -⟩ := he.emits_txbuf hnew
      have hall := List.all_eq_true.mp (hs.encoded seq htx).1
      exact List.all_eq_true.mpr fun pd hpd => hall pd (hpart.subset hpd)
  · obtain hold | hnew := List.mem_append.mp hmem
    · exact hs.latched chan seq hold
    · obtain ⟨hl, frame, htx, -, hwhole⟩ := he.emits_txbuf hnew
      obtain rfl := hwhole chan seq rfl
      exact ⟨s.ctx.deviceType, h.ctx.realType hl, h.ctx.timingRow ▸ (hs.encoded _ htx).2⟩

/-- Settles O16: an effect encodes sound descriptors only, and emits only what was encoded. -/
theorem stepKeepsSignalSound : Obligations.StepKeepsSignalSound := by
  intro s t h hs hstep
  obtain rfl | ⟨rest, i, he⟩ := step_hasEffect hstep
  · exact hs
  · exact he.keeps_signalSound ⟨h.ctx, h.tick⟩ ⟨hs.encoded, hs.sent, hs.latched⟩

/-! ### Runs from reset -/

theorem Ctx.reset_inv : Ctx.reset.Inv := Ctx.inv_of_null (by simp [Ctx.reset]) Ctx.reset_isNull

/-- A run's start meets both invariants, whatever the host issues and the oracles will answer. -/
theorem State.start_sound (commands : List CmdWord) (oracles : Oracles) {params : Params} (h : 1 ≤ params.tickNs) :
    (State.start commands oracles params).Inv ∧ (State.start commands oracles params).SignalSound :=
  ⟨⟨Ctx.reset_inv, h⟩, by simp [State.start, State.reset, Ctx.reset], by simp [State.start, State.reset],
    by simp [State.start, State.reset]⟩

/-- Settles O14: reset is the start with nothing issued, and the free tick is one more than some natural. -/
theorem resetMeetsInvariants : Obligations.ResetMeetsInvariants :=
  State.start_sound [] State.reset.oracles (params := State.reset.params) (Nat.le_add_left 1 Config.tickPred)

/-- A run state's successor is the step's next state, or the same state with a mark set. -/
theorem advance_cases (s : State) :
    step s = .next (advance s) ∨ (∃ f, advance s = { s with faultMark := some f }) ∨
      ∃ r, advance s = { s with refusalMark := some r } := by
  cases h : step s with
  | next t => exact .inl (by rw [advance_of_next h])
  | fault f => exact .inr (.inl ⟨f, advance_of_fault h⟩)
  | refused r => exact .inr (.inr ⟨r, advance_of_refused h⟩)

/-- What one run step keeps, any number of them keeps. -/
theorem advanceBy_induction {P : State → Prop} (hstep : ∀ s, P s → P (advance s)) (n : Nat) {s : State} (h : P s) :
    P (advanceBy n s) := by
  induction n generalizing s with
  | zero => exact h
  | succ n ih => exact ih (hstep s h)

/-- Both invariants survive a run step: no mark is part of either. -/
theorem advance_keeps_sound (s : State) (h : s.Inv ∧ s.SignalSound) : (advance s).Inv ∧ (advance s).SignalSound := by
  obtain ⟨hinv, hs⟩ := h
  obtain hnext | ⟨f, hf⟩ | ⟨r, hr⟩ := advance_cases s
  · exact ⟨stepKeepsInv _ _ hinv hnext, stepKeepsSignalSound _ _ hinv hs hnext⟩
  · exact hf ▸ ⟨⟨hinv.ctx, hinv.tick⟩, hs.encoded, hs.sent, hs.latched⟩
  · exact hr ▸ ⟨⟨hinv.ctx, hinv.tick⟩, hs.encoded, hs.sent, hs.latched⟩

/-- Settles O17, by induction on the steps of the run. -/
theorem reachableStatesSound : Obligations.ReachableStatesSound := by
  rintro s ⟨commands, oracles, params, n, htick, rfl⟩
  exact advanceBy_induction advance_keeps_sound n (State.start_sound commands oracles htick)

end Sys2Proof.Machine
end

section
/-! Frames: which command can change which field, how the lifecycle moves, and what an error leaves (10_state.md R24, R25,
R43, 40_strip_manager.md R113, 60_exceptions.md R205, 70_reset_and_hazards.md R239). -/

namespace Sys2Proof.Machine

section Frame
variable {s : State} {i : Instr} {r : Result} {c : Ctx} {es : List Event} {o : Oracles} (he : Effect s i r c es o)
include he

/-- R25: the edges of the lifecycle. -/
theorem Effect.lifecycle_moves :
    c.lifecycle = s.ctx.lifecycle ∨
      (s.ctx.lifecycle = .uninitialized ∧ c.lifecycle = .created ∧ i.row.mnemonic = "CREATE") ∨
      (s.ctx.lifecycle = .created ∧ c.lifecycle = .destroyed ∧ i = .destroy .strip) := by
  cases he with
  | created hl => exact .inr (.inl ⟨hl, rfl, rfl⟩)
  | destroyed hl => exact .inr (.inr ⟨hl, rfl, rfl⟩)
  | _ => exact .inl rfl

/-- R24: LIFECYCLE is written by CREATE and DESTROY. -/
theorem Effect.lifecycle_writers (h : c.lifecycle ≠ s.ctx.lifecycle) : i.row.mnemonic ∈ ["CREATE", "DESTROY"] := by
  obtain hsame | ⟨-, -, hm⟩ | ⟨-, -, rfl⟩ := he.lifecycle_moves
  · exact absurd hsame h
  · simp [hm]
  · simp [Instr.row]

/-- R24: the strip's description is written by CREATE, DESTROY and INITIALIZE. -/
theorem Effect.description_writers
    (h : c.deviceType ≠ s.ctx.deviceType ∨ c.length ≠ s.ctx.length ∨ c.maxc ≠ s.ctx.maxc ∨ c.timing ≠ s.ctx.timing) :
    i.row.mnemonic ∈ ["CREATE", "DESTROY", "INITIALIZE"] := by
  cases he with
  | nulled => simp [Instr.row]
  | created => simp [Instr.row]
  | destroyed => simp [Instr.row]
  | _ => simp at h

/-- R32: PIX is written by CREATE, DESTROY and SET_PIXEL; under the invariant INITIALIZE finds none. -/
theorem Effect.pixels_writers (hinv : s.ctx.Inv) (h : c.pixels ≠ s.ctx.pixels) :
    i.row.mnemonic ∈ ["CREATE", "DESTROY", "SET_PIXEL"] := by
  cases he with
  | nulled hl => exact absurd (congrArg Ctx.pixels (hinv.null_eq_self hl)) h
  | created => simp [Instr.row]
  | destroyed => simp [Instr.row]
  | pixelSet => simp [Instr.row]
  | _ => simp at h

/-- R33: WIRE is written by CREATE, DESTROY and FILL_BUFFER. -/
theorem Effect.wire_writers (hinv : s.ctx.Inv) (h : c.wire ≠ s.ctx.wire) :
    i.row.mnemonic ∈ ["CREATE", "DESTROY", "FILL_BUFFER"] := by
  cases he with
  | nulled hl => exact absurd (congrArg Ctx.wire (hinv.null_eq_self hl)) h
  | created => simp [Instr.row]
  | destroyed => simp [Instr.row]
  | filled => simp [Instr.row]
  | _ => simp at h

/-- R35: TXBUF is written by CREATE, DESTROY, ENCODE and TRANSMIT. -/
theorem Effect.txbuf_writers (hinv : s.ctx.Inv) (h : c.txbuf ≠ s.ctx.txbuf) :
    i.row.mnemonic ∈ ["CREATE", "DESTROY", "ENCODE", "TRANSMIT"] := by
  cases he with
  | nulled hl => exact absurd (congrArg Ctx.txbuf (hinv.null_eq_self hl)) h
  | created => simp [Instr.row]
  | destroyed => simp [Instr.row]
  | encodeFailed => simp [Instr.row]
  | encoded => simp [Instr.row]
  | sent => simp [Instr.row]
  | partSent => simp [Instr.row]
  | _ => simp at h

/-- R36: BOUND is written by BIND alone. -/
theorem Effect.bound_writers (h : c.bound ≠ s.ctx.bound) : i.row.mnemonic = "BIND" := by
  cases he with
  | bindFailed => rfl
  | bound => rfl
  | _ => simp at h

/-- R43: only TRANSMIT emits. -/
theorem Effect.emitters (h : es ≠ []) : i.row.mnemonic = "TRANSMIT" := by
  cases he with
  | sent => rfl
  | partSent => rfl
  | _ => simp at h

/-- R14: only CREATE, ENCODE, BIND and TRANSMIT ask an oracle. -/
theorem Effect.oracle_users (h : o ≠ s.oracles) : i.row.mnemonic ∈ ["CREATE", "ENCODE", "BIND", "TRANSMIT"] := by
  cases he with
  | createFailed => simp [Instr.row]
  | created => simp [Instr.row]
  | encodeFailed => simp [Instr.row]
  | encoded => simp [Instr.row]
  | bindFailed => simp [Instr.row]
  | bound => simp [Instr.row]
  | sent => simp [Instr.row]
  | partSent => simp [Instr.row]
  | _ => simp at h

/-- Log 6: what has been asked stays recorded. -/
theorem Effect.asked_prefix : s.oracles.asked <+: o.asked := by
  cases he with
  | createFailed ho => exact ho
  | created _ _ _ ho => exact ho
  | encodeFailed _ ho => exact ho
  | encoded _ _ _ _ _ ho => exact ho
  | bindFailed ho => exact ho
  | bound ho => exact ho
  | sent _ _ ho => exact ho
  | partSent _ _ _ ho => exact ho
  | _ => exact List.prefix_rfl

end Frame

/-- Settles O18: each field's writers are those of the effects that touch it. -/
theorem fieldsChangedOnlyByTheirWriters : Obligations.FieldsChangedOnlyByTheirWriters := by
  intro i s t hinv hexec
  obtain ⟨r, c, es, o, he, rfl⟩ := exec_hasEffect hexec
  exact ⟨he.lifecycle_writers, fun h => he.description_writers (.inl h),
    fun h => he.description_writers (.inr (.inl h)), fun h => he.description_writers (.inr (.inr (.inl h))),
    fun h => he.description_writers (.inr (.inr (.inr h))), he.pixels_writers hinv.ctx, he.wire_writers hinv.ctx,
    he.txbuf_writers hinv.ctx, he.bound_writers, fun h => he.emitters fun hes => h (by simp [State.commit, hes]),
    he.oracle_users, List.prefix_append _ _, he.asked_prefix, ⟨r, rfl⟩, rfl, rfl, rfl, rfl⟩

/-- R113: a step leaves a Destroyed strip Destroyed. -/
theorem step_keeps_destroyed {s t : State} (h : step s = .next t) (hl : s.ctx.lifecycle = .destroyed) :
    t.ctx.lifecycle = .destroyed := by
  obtain rfl | ⟨rest, i, r, c, es, o, he, rfl⟩ := step_hasEffect h
  · exact hl
  · obtain hsame | ⟨hun, -⟩ | ⟨hcr, -⟩ := he.lifecycle_moves
    · exact hsame.trans hl
    · exact absurd (hl.symm.trans hun) (by decide)
    · exact absurd (hl.symm.trans hcr) (by decide)

theorem advance_keeps_destroyed (s : State) (hl : s.ctx.lifecycle = .destroyed) :
    (advance s).ctx.lifecycle = .destroyed := by
  obtain hnext | ⟨f, hf⟩ | ⟨r, hr⟩ := advance_cases s
  · exact step_keeps_destroyed hnext hl
  · exact hf ▸ hl
  · exact hr ▸ hl

/-- Settles O19: the edges are the effects', and no edge leaves Destroyed. -/
theorem lifecycleMoves : Obligations.LifecycleMoves := by
  refine ⟨fun i s t hexec => ?_, fun s n => advanceBy_induction advance_keeps_destroyed n⟩
  obtain ⟨r, c, es, o, he, rfl⟩ := exec_hasEffect hexec
  exact he.lifecycle_moves

/-- Settles O20: the effects with an error are a command with nothing done, a failed CREATE, ENCODE or BIND, and a
TRANSMIT whose write failed. -/
theorem errorsLeaveNoPartialState : Obligations.ErrorsLeaveNoPartialState := by
  intro i s t r _ hexec hres herr
  obtain ⟨r', c, es, o, he, rfl⟩ := exec_hasEffect hexec
  obtain rfl : r' = r := by simpa [State.commit] using hres
  cases he with
  | unchanged hencode hbind htransmit =>
    refine ⟨fun _ => ⟨rfl, List.append_nil _, rfl⟩, fun h => absurd h hencode,
      fun pin chan h => absurd h (hbind pin chan), fun h => .inl ⟨htransmit h, rfl, List.append_nil _⟩,
      fun _ => ⟨rfl, List.append_nil _⟩⟩
  | createFailed =>
    exact ⟨by simp, by simp, by simp, by simp, fun _ => ⟨rfl, List.append_nil _⟩⟩
  | encodeFailed hr =>
    exact ⟨fun h => absurd h hr, fun _ => ⟨rfl, List.append_nil _⟩, by simp, by simp, by simp [Instr.row]⟩
  | bindFailed =>
    refine ⟨by simp, by simp, fun pin chan _ => ⟨rfl, List.append_nil _⟩, by simp, by simp [Instr.row]⟩
  | partSent =>
    exact ⟨by simp, by simp, by simp, fun _ => .inr ⟨_, _, _, rfl, rfl, rfl⟩, by simp [Instr.row]⟩
  | _ => cases herr

/-! ### Written cells -/

/-- R55: FILL_BUFFER's loop over at least the buffer's LEDs writes every cell. -/
theorem isSome_readByte_serializePixels (pix : Memory Pixel) {w : Memory Byte} {n k : Nat} (hk : k < w.size)
    (h : k < 3 * n ∨ (readByte w k).isSome) : (readByte (serializePixels pix w n) k).isSome := by
  rw [readByte_serializePixels]
  split
  · rfl
  · obtain h | h := h
    · omega
    · exact h

/-- R239: no effect on a Created strip leaves a cell unwritten that was written. -/
theorem Effect.keeps_allWritten {s : State} {i : Instr} {r : Result} {c : Ctx} {es : List Event} {o : Oracles}
    (he : Effect s i r c es o) (hl : s.ctx.lifecycle = .created) (h : s.ctx.allWritten) : c.allWritten := by
  cases he with
  | nulled hl' => exact absurd hl hl'
  | created hl' => exact absurd (hl.symm.trans hl') (by decide)
  | destroyed => rintro m ⟨⟩
  | filled _ _ hw =>
    rintro m ⟨⟩ k hk
    rw [serializePixels_size] at hk
    exact isSome_readByte_serializePixels _ hk (.inr (h _ hw k hk))
  | _ => exact h

/-- R138: with every cell written ENCODE never reports an unwritten one. -/
theorem exec_encode_strip_ne_unwritten {s : State} (hcells : s.ctx.allWritten) :
    exec (.encode .strip) s ≠ .fault .unwritten := by
  cases hw? : createdWire? s.ctx with
  | none => simp [exec_encode_strip_of_no_wire hw?]
  | some wire =>
    obtain ⟨hl, hw⟩ := createdWire?_eq_some.mp hw?
    obtain ⟨bytes, hb⟩ := wireBytes_isSome (hcells wire hw)
    by_cases hsize : wire.size = 0
    · simp [exec_encode_strip_of_empty hl hw hsize]
    · cases hr : representable s.params.tickNs s.ctx.timing with
      | false => simp [exec_encode_strip_of_unrepresentable hl hw hsize hr]
      | true =>
        obtain ⟨o, -, h | h⟩ := exec_encode_strip_cases hl hw hsize hr hb <;> simp [h]

/-- Settles O46: the loop writes the cells of every LED, no later effect unwrites one, and ENCODE raises F_UNWRITTEN only
where the bytes cannot be read. -/
theorem writtenCellsStayWritten : Obligations.WrittenCellsStayWritten := by
  refine ⟨fun s t hinv hl hexec => ?_, fun s t hl hcells hstep => ?_, fun s => exec_encode_strip_ne_unwritten⟩
  · obtain ⟨pix, wire, hp, hw⟩ := hinv.ctx.memories_of_created hl
    rw [exec_fillBuffer_strip_of_created hl hp hw] at hexec
    cases hexec
    rintro m ⟨⟩ k hk
    rw [serializePixels_size] at hk
    exact isSome_readByte_serializePixels pix hk (.inl (hinv.ctx.wireSize wire hw ▸ hk))
  · obtain rfl | ⟨rest, i, r, c, es, o, he, rfl⟩ := step_hasEffect hstep
    · exact hcells
    · exact he.keeps_allWritten hl hcells

end Sys2Proof.Machine
end

section
/-! What no command reads: earlier results, the ceiling MAXC, and for ENCODE all but the wire buffer and the timing
(10_state.md R23, R29, 40_strip_manager.md R111, 41_protocol_encoder.md R147). -/

namespace Sys2Proof.Machine

/-! ### Draws read the oracles alone -/

section Draws
variable {s s' : State} (h : s'.oracles = s.oracles) {o : Oracles}
include h

theorem drawAlloc_of_same_oracles {k : AllocKind} {n : Nat} {a : AllocAnswer}
    (hd : drawAlloc k n s = (a, s.withOracles o)) : drawAlloc k n s' = (a, s'.withOracles o) := by
  obtain ⟨rfl, ho⟩ := Prod.mk.inj hd
  obtain rfl : (drawAlloc k n s).2.oracles = o := congrArg State.oracles ho
  simp only [drawAlloc, h]
  split <;> rfl

theorem drawPeriph_of_same_oracles {c : PeriphCall} {a : PeriphAnswer}
    (hd : drawPeriph c s = (a, s.withOracles o)) : drawPeriph c s' = (a, s'.withOracles o) := by
  obtain ⟨rfl, ho⟩ := Prod.mk.inj hd
  obtain rfl : (drawPeriph c s).2.oracles = o := congrArg State.oracles ho
  simp only [drawPeriph, h]
  split <;> rfl

theorem drawLeading_of_same_oracles {seq part : List PulseDescriptor}
    (hd : drawLeading seq s = (part, s.withOracles o)) : drawLeading seq s' = (part, s'.withOracles o) := by
  obtain ⟨rfl, ho⟩ := Prod.mk.inj hd
  obtain rfl : (drawLeading seq s).2.oracles = o := congrArg State.oracles ho
  simp only [drawLeading, h]
  split <;> rfl

theorem callAll_of_same_oracles {calls : List PeriphCall} {failure : Option (PeriphOp × BitVec 32)}
    (hd : callAll calls s = (failure, s.withOracles o)) : callAll calls s' = (failure, s'.withOracles o) := by
  induction calls generalizing s s' with
  | nil =>
    obtain ⟨rfl, ho⟩ := Prod.mk.inj hd
    obtain rfl : s.oracles = o := congrArg State.oracles ho
    simp only [callAll, ← h]
    rfl
  | cons c calls ih =>
    obtain ⟨a, o₁, -, hfirst⟩ := drawPeriph_fst_snd c s
    simp only [callAll, hfirst, drawPeriph_of_same_oracles h hfirst] at hd ⊢
    cases a with
    | ok => exact ih (s := s.withOracles o₁) (s' := s'.withOracles o₁) rfl hd
    | err code =>
      obtain ⟨rfl, ho⟩ := Prod.mk.inj hd
      obtain rfl : o₁ = o := congrArg State.oracles ho
      rfl

end Draws

/-! ### Results and MAXC -/

/-- The same state with other earlier results and another ceiling. -/
def State.disguise (s : State) (earlier : List Result) (m : Byte) : State :=
  { s with results := earlier, ctx := { s.ctx with maxc := m } }

/-- Two answers that differ at most in what `disguise` changes: the same fault, or next states with the same new result,
where the ceilings agree or are the ones the two runs started with. -/
inductive Twins (s : State) (earlier : List Result) (m : Byte) : Answer → Answer → Prop
  | next {t : State} {r : Result} {m' : Byte} (hres : t.results = s.results ++ [r])
      (hm : m' = t.ctx.maxc ∨ (m' = m ∧ t.ctx.maxc = s.ctx.maxc)) :
      Twins s earlier m (.next t) (.next (t.disguise (earlier ++ [r]) m'))
  | fault (f : Fault) : Twins s earlier m (.fault f) (.fault f)

section Twins
variable {s : State} {earlier : List Result} {m : Byte}

/-- One result from states that agree but for the disguise, both ceilings kept. -/
theorem Twins.report_kept {u : State} {r : Result} (hres : u.results = s.results) (hm : u.ctx.maxc = s.ctx.maxc) :
    Twins s earlier m (.next (u.report r)) (.next ((u.disguise earlier m).report r)) :=
  .next (congrArg (· ++ [r]) hres) (.inr ⟨rfl, hm⟩)

/-- One result from states of the same context, ceiling included. -/
theorem Twins.report_set {u : State} {r : Result} (hres : u.results = s.results) :
    Twins s earlier m (.next (u.report r)) (.next ((u.disguise earlier u.ctx.maxc).report r)) :=
  .next (congrArg (· ++ [r]) hres) (.inl rfl)

theorem twins_initStrip :
    Twins s earlier m (exec (.initStrip .strip) s) (exec (.initStrip .strip) (s.disguise earlier m)) := by
  by_cases hl : s.ctx.lifecycle = .created
  · rw [exec_initStrip_strip_of_created hl, exec_initStrip_strip_of_created (s := s.disguise earlier m) hl]
    exact .fault _
  · rw [exec_initStrip_strip_of_not_created hl, exec_initStrip_strip_of_not_created (s := s.disguise earlier m) hl]
    exact .report_set (u := s.setCtx s.ctx.null) rfl

theorem twins_create (d : DType) (len : BitVec 16) (maxc : Byte) :
    Twins s earlier m (exec (.create .strip d len maxc) s)
      (exec (.create .strip d len maxc) (s.disguise earlier m)) := by
  by_cases hl : s.ctx.lifecycle = .uninitialized
  case neg =>
    rw [exec_create_strip_of_not_uninitialized hl, exec_create_strip_of_not_uninitialized (s := s.disguise earlier m) hl]
    exact .fault _
  cases hd : realDevice? d with
  | none =>
    rw [exec_create_strip_of_unreal hl maxc hd, exec_create_strip_of_unreal (s := s.disguise earlier m) hl maxc hd]
    exact .report_kept rfl rfl
  | some t =>
    obtain ⟨rfl, ht⟩ := realDevice?_eq_some.mp hd
    by_cases hlen : len = 0
    · rw [hlen, exec_create_strip_of_no_leds hl maxc ht,
        exec_create_strip_of_no_leds (s := s.disguise earlier m) hl maxc ht]
      exact .report_kept rfl rfl
    · obtain ⟨o₁, -, hpix | hpix⟩ := drawAlloc_cases .pix len.toNat s
      all_goals have hpix' := drawAlloc_of_same_oracles (s := s) (s' := s.disguise earlier m) rfl hpix
      · obtain ⟨o₂, -, hwire | hwire⟩ := drawAlloc_cases .wire (len.toNat * bytesPerLed t) (s.withOracles o₁)
        all_goals
          have hwire' := drawAlloc_of_same_oracles (s := s.withOracles o₁)
            (s' := (s.disguise earlier m).withOracles o₁) rfl hwire
        · rw [exec_create_strip_of_granted hl ht hlen hpix hwire,
            exec_create_strip_of_granted (s := s.disguise earlier m) hl ht hlen hpix' hwire']
          exact .report_set (u := (s.withOracles o₂).setCtx (s.ctx.create t len maxc)) rfl
        · rw [exec_create_strip_of_wire_fails hl maxc ht hlen hpix hwire,
            exec_create_strip_of_wire_fails (s := s.disguise earlier m) hl maxc ht hlen hpix' hwire']
          exact .report_kept (u := s.withOracles o₂) rfl rfl
      · rw [exec_create_strip_of_pix_fails hl maxc ht hlen hpix,
          exec_create_strip_of_pix_fails (s := s.disguise earlier m) hl maxc ht hlen hpix']
        exact .report_kept (u := s.withOracles o₁) rfl rfl

theorem twins_destroy :
    Twins s earlier m (exec (.destroy .strip) s) (exec (.destroy .strip) (s.disguise earlier m)) := by
  by_cases hl : s.ctx.lifecycle = .created
  · rw [exec_destroy_strip_of_created hl, exec_destroy_strip_of_created (s := s.disguise earlier m) hl]
    exact .report_set (u := s.setCtx { s.ctx.null with lifecycle := .destroyed }) rfl
  · rw [exec_destroy_strip_of_not_created hl, exec_destroy_strip_of_not_created (s := s.disguise earlier m) hl]
    exact .report_kept rfl rfl

theorem twins_setPixel (idx : BitVec 16) (r g b : Byte) :
    Twins s earlier m (exec (.setPixel .strip idx r g b) s)
      (exec (.setPixel .strip idx r g b) (s.disguise earlier m)) := by
  cases hp? : createdPixels? s.ctx with
  | none =>
    rw [exec_setPixel_strip_of_no_pixels hp?, exec_setPixel_strip_of_no_pixels (s := s.disguise earlier m) hp?]
    exact .fault _
  | some pix =>
    obtain ⟨hl, hp⟩ := createdPixels?_eq_some.mp hp?
    by_cases hi : idx.toNat < s.ctx.length.toNat
    · rw [exec_setPixel_strip_of_lt r g b hl hp hi,
        exec_setPixel_strip_of_lt (s := s.disguise earlier m) r g b hl hp hi]
      exact .report_kept (u := s.setPixels (writePixel pix idx.toNat ⟨r, g, b⟩)) rfl rfl
    · have hi : s.ctx.length.toNat ≤ idx.toNat := Nat.not_lt.mp hi
      rw [exec_setPixel_strip_of_le hi, exec_setPixel_strip_of_le (s := s.disguise earlier m) hi]
      exact .fault _

theorem twins_fillBuffer :
    Twins s earlier m (exec (.fillBuffer .strip) s) (exec (.fillBuffer .strip) (s.disguise earlier m)) := by
  have missing (h : createdPixels? s.ctx = none ∨ createdWire? s.ctx = none) :
      Twins s earlier m (exec (.fillBuffer .strip) s) (exec (.fillBuffer .strip) (s.disguise earlier m)) := by
    rw [exec_fillBuffer_strip_of_no_memory h, exec_fillBuffer_strip_of_no_memory (s := s.disguise earlier m) h]
    exact .report_kept rfl rfl
  cases hp? : createdPixels? s.ctx with
  | none => exact missing (.inl hp?)
  | some pix =>
    cases hw? : createdWire? s.ctx with
    | none => exact missing (.inr hw?)
    | some wire =>
      obtain ⟨hl, hp⟩ := createdPixels?_eq_some.mp hp?
      obtain ⟨-, hw⟩ := createdWire?_eq_some.mp hw?
      rw [exec_fillBuffer_strip_of_created hl hp hw,
        exec_fillBuffer_strip_of_created (s := s.disguise earlier m) hl hp hw]
      exact .report_kept (u := s.setWire (serializePixels pix wire s.ctx.length.toNat)) rfl rfl

theorem twins_encode :
    Twins s earlier m (exec (.encode .strip) s) (exec (.encode .strip) (s.disguise earlier m)) := by
  cases hw? : createdWire? s.ctx with
  | none =>
    rw [exec_encode_strip_of_no_wire hw?, exec_encode_strip_of_no_wire (s := s.disguise earlier m) hw?]
    exact .report_kept (u := s.setTxbuf none) rfl rfl
  | some wire =>
    obtain ⟨hl, hw⟩ := createdWire?_eq_some.mp hw?
    by_cases hsize : wire.size = 0
    case pos =>
      rw [exec_encode_strip_of_empty hl hw hsize, exec_encode_strip_of_empty (s := s.disguise earlier m) hl hw hsize]
      exact .report_kept (u := s.setTxbuf none) rfl rfl
    cases hr : representable s.params.tickNs s.ctx.timing with
    | false =>
      rw [exec_encode_strip_of_unrepresentable hl hw hsize hr,
        exec_encode_strip_of_unrepresentable (s := s.disguise earlier m) hl hw hsize hr]
      exact .fault _
    | true =>
      cases hb : wireBytes wire with
      | none =>
        rw [exec_encode_strip_of_unwritten hl hw hsize hr hb,
          exec_encode_strip_of_unwritten (s := s.disguise earlier m) hl hw hsize hr hb]
        exact .fault _
      | some bytes =>
        obtain ⟨o, -, hdraw | hdraw⟩ := drawAlloc_cases .tx (8 * wire.size) s
        all_goals have hdraw' := drawAlloc_of_same_oracles (s := s) (s' := s.disguise earlier m) rfl hdraw
        · rw [exec_encode_strip_of_granted hl hw hsize hr hb hdraw,
            exec_encode_strip_of_granted (s := s.disguise earlier m) hl hw hsize hr hb hdraw']
          exact .report_kept (u := (s.withOracles o).setTxbuf _) rfl rfl
        · rw [exec_encode_strip_of_out_of_memory hl hw hsize hr hb hdraw,
            exec_encode_strip_of_out_of_memory (s := s.disguise earlier m) hl hw hsize hr hb hdraw']
          exact .report_kept (u := (s.withOracles o).setTxbuf none) rfl rfl

theorem twins_bind (pin chan : Byte) :
    Twins s earlier m (exec (.bind .strip pin chan) s) (exec (.bind .strip pin chan) (s.disguise earlier m)) := by
  obtain ⟨failure, o, -, hcalls⟩ := callAll_fst_snd (bindCalls s.params.divider pin chan) (s.setBound none)
  have hcalls' := callAll_of_same_oracles (s := s.setBound none)
    (s' := (s.disguise earlier m).setBound none) rfl hcalls
  cases failure with
  | none =>
    rw [exec_bind_strip_of_all_ok hcalls, exec_bind_strip_of_all_ok (s := s.disguise earlier m) hcalls']
    exact .report_kept (u := (s.withOracles o).setBound (some (pin, chan))) rfl rfl
  | some failed =>
    obtain ⟨op, code⟩ := failed
    rw [exec_bind_strip_of_failure hcalls, exec_bind_strip_of_failure (s := s.disguise earlier m) hcalls']
    exact .report_kept (u := (s.withOracles o).setBound none) rfl rfl

theorem twins_transmit :
    Twins s earlier m (exec (.transmit .strip) s) (exec (.transmit .strip) (s.disguise earlier m)) := by
  by_cases hl : s.ctx.lifecycle = .created
  case neg =>
    rw [exec_transmit_strip_of_not_created hl, exec_transmit_strip_of_not_created (s := s.disguise earlier m) hl]
    exact .report_kept rfl rfl
  cases hb : s.ctx.bound with
  | none =>
    rw [exec_transmit_strip_of_unbound hl hb, exec_transmit_strip_of_unbound (s := s.disguise earlier m) hl hb]
    exact .fault _
  | some pc =>
    obtain ⟨pin, chan⟩ := pc
    cases htx : s.ctx.txbuf with
    | none =>
      rw [exec_transmit_strip_of_not_encoded hl hb htx,
        exec_transmit_strip_of_not_encoded (s := s.disguise earlier m) hl hb htx]
      exact .fault _
    | some seq =>
      obtain ⟨a, o₁, -, hwrite⟩ := drawPeriph_fst_snd (.write chan seq true) s
      have hwrite' := drawPeriph_of_same_oracles (s := s) (s' := s.disguise earlier m) rfl hwrite
      cases a with
      | ok =>
        rw [exec_transmit_strip_of_write_ok hl hb htx hwrite,
          exec_transmit_strip_of_write_ok (s := s.disguise earlier m) hl hb htx hwrite']
        exact .report_kept (u := ((s.withOracles o₁).emit (.emitted chan seq)).setTxbuf none) rfl rfl
      | err code =>
        obtain ⟨o₂, ho₂⟩ := drawLeading_snd seq (s.withOracles o₁)
        have hpart : drawLeading seq (s.withOracles o₁) = (_, (s.withOracles o₁).withOracles o₂) := Prod.ext rfl ho₂
        have hpart' := drawLeading_of_same_oracles (s := s.withOracles o₁)
          (s' := (s.disguise earlier m).withOracles o₁) rfl hpart
        rw [exec_transmit_strip_of_write_error hl hb htx hwrite hpart,
          exec_transmit_strip_of_write_error (s := s.disguise earlier m) hl hb htx hwrite' hpart']
        exact .report_kept (u := ((s.withOracles o₂).emit (.emittedPartial chan _ code)).setTxbuf none) rfl rfl

/-- R23, R29: no command reads an earlier result or the ceiling. -/
theorem exec_twins (i : Instr) (s : State) (earlier : List Result) (m : Byte) :
    Twins s earlier m (exec i s) (exec i (s.disguise earlier m)) := by
  cases i with
  | initStrip h => cases h with
    | null => exact .report_kept rfl rfl
    | strip => exact twins_initStrip
  | create h d len maxc => cases h with
    | null => exact .report_kept rfl rfl
    | strip => exact twins_create d len maxc
  | destroy h => cases h with
    | null => exact .report_kept rfl rfl
    | strip => exact twins_destroy
  | setPixel h idx r g b => cases h with
    | null => exact .fault _
    | strip => exact twins_setPixel idx r g b
  | fillBuffer h => cases h with
    | null => exact .report_kept rfl rfl
    | strip => exact twins_fillBuffer
  | setTimings d => cases d with
    | known t => exact .report_kept rfl rfl
    | unrecognized => exact .report_kept rfl rfl
  | derivePulses h => cases h with
    | null => exact .report_kept rfl rfl
    | strip => exact .report_kept rfl rfl
  | encode h => cases h with
    | null => exact .report_kept rfl rfl
    | strip => exact twins_encode
  | bind h pin chan => cases h with
    | null => exact .report_kept rfl rfl
    | strip => exact twins_bind pin chan
  | transmit h => cases h with
    | null => exact .report_kept rfl rfl
    | strip => exact twins_transmit

end Twins

/-- Settles O21: disguise the results alone; a ceiling the runs started with is then the same in both. -/
theorem resultsAreNeverRead : Obligations.ResultsAreNeverRead := by
  intro i s earlier
  have htwins := exec_twins i s earlier s.ctx.maxc
  rw [show s.disguise earlier s.ctx.maxc = { s with results := earlier } from rfl] at htwins
  generalize exec i s = a at htwins ⊢
  generalize exec i { s with results := earlier } = b at htwins ⊢
  cases htwins with
  | fault f => rfl
  | @next t r m' hres hm =>
    have hceiling : m' = t.ctx.maxc := hm.elim id fun ⟨h, h'⟩ => h.trans h'.symm
    exact ⟨r, hres, by rw [hceiling]; rfl⟩

/-- Settles O22: disguise the ceiling alone; the earlier results are then the same in both. -/
theorem maxcIsNeverRead : Obligations.MaxcIsNeverRead := by
  intro i s ceiling
  have htwins := exec_twins i s s.results ceiling
  rw [show s.disguise s.results ceiling = { s with ctx := { s.ctx with maxc := ceiling } } from rfl] at htwins
  generalize exec i s = a at htwins ⊢
  generalize exec i { s with ctx := { s.ctx with maxc := ceiling } } = b at htwins ⊢
  cases htwins with
  | fault f => rfl
  | @next t r m' hres => simp only [State.disguise, ← hres]

/-! ### ENCODE -/

/-- Settles O44: each of ENCODE's checks, its draw and its frame are told by what the two states agree on. -/
theorem encodeReadsWireAndTimingOnly : Obligations.EncodeReadsWireAndTimingOnly := by
  intro s s' hl' hw' ht' hp' ho'
  have hsame : createdWire? s'.ctx = createdWire? s.ctx := by simp only [createdWire?, hl', hw']
  have hr' : representable s'.params.tickNs s'.ctx.timing = representable s.params.tickNs s.ctx.timing := by
    rw [hp', ht']
  cases hw? : createdWire? s.ctx with
  | none =>
    rw [exec_encode_strip_of_no_wire hw?, exec_encode_strip_of_no_wire (hsame.trans hw?)]
    exact ⟨rfl, _, rfl, rfl⟩
  | some wire =>
    obtain ⟨hl, hw⟩ := createdWire?_eq_some.mp hw?
    rw [hl] at hl'
    rw [hw] at hw'
    by_cases hsize : wire.size = 0
    case pos =>
      rw [exec_encode_strip_of_empty hl hw hsize, exec_encode_strip_of_empty hl' hw' hsize]
      exact ⟨rfl, _, rfl, rfl⟩
    cases hr : representable s.params.tickNs s.ctx.timing with
    | false =>
      rw [exec_encode_strip_of_unrepresentable hl hw hsize hr,
        exec_encode_strip_of_unrepresentable hl' hw' hsize (hr'.trans hr)]
    | true =>
      cases hb : wireBytes wire with
      | none =>
        rw [exec_encode_strip_of_unwritten hl hw hsize hr hb,
          exec_encode_strip_of_unwritten hl' hw' hsize (hr'.trans hr) hb]
      | some bytes =>
        obtain ⟨o, -, hdraw | hdraw⟩ := drawAlloc_cases .tx (8 * wire.size) s
        all_goals have hdraw' := drawAlloc_of_same_oracles ho' hdraw
        · rw [exec_encode_strip_of_granted hl hw hsize hr hb hdraw,
            exec_encode_strip_of_granted hl' hw' hsize (hr'.trans hr) hb hdraw', hp', ht']
          exact ⟨rfl, _, rfl, rfl⟩
        · rw [exec_encode_strip_of_out_of_memory hl hw hsize hr hb hdraw,
            exec_encode_strip_of_out_of_memory hl' hw' hsize (hr'.trans hr) hb hdraw']
          exact ⟨rfl, _, rfl, rfl⟩

end Sys2Proof.Machine
end

section
/-! The host's SHOW, from the pixels to the wire (30_encoding.md R88, 20_memory.md R55, 41_protocol_encoder.md R146,
42_transmitter.md R177). -/

namespace Sys2Proof.Machine

section Issue
variable {i : Instr} {rest : List Instr} {s u : State} {r : Result}

@[simp] theorem State.report_lastResult? (s : State) (r : Result) : (s.report r).lastResult? = some r := by
  simp [State.lastResult?]

/-- R88: after a result OK the host issues the next command. -/
theorem issueUntilError_cons_of_ok (h : exec i s = .next (u.report r)) (hr : r.isOk = true) :
    issueUntilError (i :: rest) s = issueUntilError rest (u.report r) := by
  simp only [issueUntilError, h, State.report_lastResult?, hr, if_true]

/-- R88: at any other result it stops. -/
theorem issueUntilError_cons_of_error (h : exec i s = .next (u.report r)) (hr : r.isOk = false) :
    issueUntilError (i :: rest) s = .next (u.report r) := by
  simp [issueUntilError, h, hr]

end Issue

/-- R55: the component of a pixel that a wire byte carries, told by cases. -/
theorem wireComponent_eq (p : Pixel) (k : Nat) :
    wireComponent p k = if k = 0 then p.g else if k = 1 then p.r else p.b := by
  match k with
  | 0 => rfl
  | 1 => rfl
  | k + 2 => rfl

section Show
variable {s : State} {pix : Memory Pixel} {wire : Memory Byte}

/-- R88: SHOW whose three commands return OK. -/
theorem showFrame_of_all_ok {a b c : State} (hfill : exec (.fillBuffer .strip) s = .next (a.report .ok))
    (hencode : exec (.encode .strip) (a.report .ok) = .next (b.report .ok))
    (htransmit : exec (.transmit .strip) (b.report .ok) = .next (c.report .ok)) :
    showFrame .strip s = .next (c.report .ok) :=
  (issueUntilError_cons_of_ok hfill rfl).trans
    ((issueUntilError_cons_of_ok hencode rfl).trans (issueUntilError_cons_of_ok htransmit rfl))

/-- R239: a serialized buffer with three cells an LED can be read. -/
theorem wireBytes_serializePixels (pix : Memory Pixel) {n : Nat} (hsize : wire.size = 3 * n) :
    ∃ bytes, wireBytes (serializePixels pix wire n) = some bytes :=
  wireBytes_isSome fun k hk => by
    rw [serializePixels_size] at hk
    exact isSome_readByte_serializePixels pix hk (.inl (hsize ▸ hk))

/-- R55: byte `k` read from a serialized buffer is a component of pixel `k div 3`. -/
theorem getElem?_of_wireBytes_serializePixels {n k : Nat} {bytes : List Byte} (hsize : wire.size = 3 * n)
    (hb : wireBytes (serializePixels pix wire n) = some bytes) (hk : k < 3 * n) :
    bytes[k]? = some (wireComponent (readPixel pix (k / 3)) (k % 3)) := by
  rw [← wireBytes_getElem? hb (by rw [serializePixels_size]; omega), readByte_serializePixels,
    if_pos ⟨by omega, by omega⟩]

/-- R146: the closed form of a frame whose bytes are `n` pixels' components, element `i` told by pixel `i div 24`. -/
theorem frameOf_getElem?_of_pixels (c : Canonical) {n i : Nat} {bytes : List Byte} (hlen : bytes.length = 3 * n)
    (hbytes : ∀ k, k < 3 * n → bytes[k]? = some (wireComponent (readPixel pix (k / 3)) (k % 3))) (hi : i < 24 * n) :
    let p := readPixel pix (i / 24)
    let v := if i % 24 / 8 = 0 then p.g else if i % 24 / 8 = 1 then p.r else p.b
    (frameOf c bytes)[i]? = some
      (if i < 24 * n - 1 then (if v.getLsbD (7 - i % 8) then c.pd1 else c.pd0)
        else (if v.getLsbD (7 - i % 8) then c.pd1r else c.pd0r)) := by
  intro p v
  have hpixel : i / 8 / 3 = i / 24 := by omega
  have hcomponent : i / 8 % 3 = i % 24 / 8 := by omega
  have hv : bytes[i / 8]? = some v := by
    rw [hbytes (i / 8) (by omega), hpixel, hcomponent, wireComponent_eq]
  have hbits : 8 * bytes.length = 24 * n := by omega
  rw [frameOf_getElem? c (by omega) hv, hbits]

end Show

/-- Settles O54: the three commands run one after another, and the frame emitted is that of the bytes FILL_BUFFER left. -/
theorem showSendsThePixels : Obligations.ShowSendsThePixels := by
  intro s pix pin chan allocs answers hinv hl hp hbound hr halloc hperiph
  obtain ⟨-, wire, -, hw⟩ := hinv.ctx.memories_of_created hl
  have hsize := hinv.ctx.wireSize wire hw
  obtain ⟨bytes, hb⟩ := wireBytes_serializePixels pix hsize
  have hlen : bytes.length = 3 * s.ctx.length.toNat := by rw [wireBytes_length hb, serializePixels_size, hsize]
  have hnonempty : (serializePixels pix wire s.ctx.length.toNat).size ≠ 0 := by
    rw [serializePixels_size]
    exact hinv.ctx.wire_size_ne_zero hl hw
  have hfill := exec_fillBuffer_strip_of_created hl hp hw
  have hencode := exec_encode_strip_of_granted (s := (s.setWire _).report .ok) hl rfl hnonempty hr hb
    (drawAlloc_queued halloc)
  have hshow := showFrame_of_all_ok hfill hencode
    (exec_transmit_strip_of_write_ok hl hbound rfl (drawPeriph_queued hperiph))
  refine ⟨_, frameOf (canonical s.params.tickNs s.ctx.timing) bytes, hshow,
    rfl, rfl, hp, by simp, by rw [frameOf_length]; omega, fun i hi => ?_⟩
  exact frameOf_getElem?_of_pixels _ hlen (fun k => getElem?_of_wireBytes_serializePixels hsize hb) hi

/-- Settles O55: the first result that is not OK is FILL_BUFFER's on a strip that is not Created, and ENCODE's where its
allocation fails. -/
theorem showStopsAtFirstError : Obligations.ShowStopsAtFirstError := by
  refine fun s => ⟨fun hl => ?_, fun rest hinv hl hr halloc => ?_⟩
  · exact issueUntilError_cons_of_error (exec_fillBuffer_strip_of_not_created hl) rfl
  · obtain ⟨pix, wire, hp, hw⟩ := hinv.ctx.memories_of_created hl
    obtain ⟨bytes, hb⟩ := wireBytes_serializePixels pix (hinv.ctx.wireSize wire hw)
    have hnonempty : (serializePixels pix wire s.ctx.length.toNat).size ≠ 0 := by
      rw [serializePixels_size]
      exact hinv.ctx.wire_size_ne_zero hl hw
    have hfill := exec_fillBuffer_strip_of_created hl hp hw
    have hencode := exec_encode_strip_of_out_of_memory (s := (s.setWire _).report .ok) hl rfl hnonempty hr hb
      (drawAlloc_queued halloc)
    exact ⟨_, (issueUntilError_cons_of_ok hfill rfl).trans (issueUntilError_cons_of_error hencode rfl), by simp, rfl, rfl⟩

end Sys2Proof.Machine
end

section
/-! The wire: how long a sequence lasts, the line's level at every moment, and the packed descriptor (42_transmitter.md
R183 to R186, 30_encoding.md R82). -/

namespace Sys2Proof.Machine

/-! ### Lengths -/

theorem frameTicks_eq_sum (seq : List PulseDescriptor) :
    frameTicks seq = (seq.map fun pd => pd.duration0 + pd.duration1).sum := by
  induction seq with
  | nil => rfl
  | cons pd seq ih => rw [frameTicks, ih, List.map_cons, List.sum_cons]

theorem wave_append (tick : Nat) (before after : List PulseDescriptor) :
    wave tick (before ++ after) = wave tick before ++ wave tick after := List.flatMap_append

theorem wave_cons (tick : Nat) (pd : PulseDescriptor) (seq : List PulseDescriptor) :
    wave tick (pd :: seq) = pulseWave tick pd ++ wave tick seq := List.flatMap_cons

theorem wireTime_cons (tick : Nat) (pd : PulseDescriptor) (seq : List PulseDescriptor) :
    wireTime tick (pd :: seq) = pd.duration0 * tick + pd.duration1 * tick + wireTime tick seq := by
  simp only [wireTime, frameTicks]
  ring

/-- R185: the waveform of a sequence is as long as its wire time. -/
theorem waveLength_wave (tick : Nat) (seq : List PulseDescriptor) : waveLength (wave tick seq) = wireTime tick seq := by
  induction seq with
  | nil => rfl
  | cons pd seq ih =>
    rw [wave_cons, waveLength_append, ih, waveLength_pulseWave, wireTime_cons]
    ring

/-- Settles O56: both are the tick times the sequence's ticks. -/
theorem waveLastsWireTime : Obligations.WaveLastsWireTime := by
  intro tick seq
  have htime : wireTime tick seq = tick * (seq.map fun pd => pd.duration0 + pd.duration1).sum := by
    rw [wireTime, frameTicks_eq_sum]
  exact ⟨(waveLength_wave tick seq).trans htime, htime⟩

/-! ### Levels -/

/-- R184: a waveform that follows another starts where that one ends. -/
theorem levelAt_append (w w' : List (Level × Nat)) (t : Nat) : levelAt (w ++ w') (waveLength w + t) = levelAt w' t := by
  induction w with
  | nil => rw [waveLength, Nat.zero_add, List.nil_append]
  | cons part w ih =>
    obtain ⟨l, d⟩ := part
    rw [List.cons_append, levelAt, waveLength, if_neg (by omega), Nat.add_assoc, Nat.add_sub_cancel_left, ih]

/-- R184: after a waveform the line idles low. -/
theorem levelAt_of_waveLength_le {w : List (Level × Nat)} {t : Nat} (h : waveLength w ≤ t) : levelAt w t = .low := by
  obtain ⟨k, rfl⟩ := Nat.exists_eq_add_of_le h
  have happend := levelAt_append w [] k
  rwa [List.append_nil] at happend

section Covering
variable (tick : Nat) (before after : List PulseDescriptor) (pd : PulseDescriptor) {t : Nat}

theorem levelAt_wave_of_first (h : t < pd.duration0 * tick) :
    levelAt (wave tick (before ++ pd :: after)) (wireTime tick before + t) = pd.level0 := by
  rw [wave_append, ← waveLength_wave, levelAt_append, wave_cons]
  exact if_pos h

theorem levelAt_wave_of_second (h : t < pd.duration1 * tick) :
    levelAt (wave tick (before ++ pd :: after)) (wireTime tick before + pd.duration0 * tick + t) = pd.level1 := by
  rw [wave_append, ← waveLength_wave, Nat.add_assoc, levelAt_append, wave_cons]
  simp [pulseWave, levelAt, h]

end Covering

theorem levelAt_wave_of_wireTime_le {tick : Nat} {seq : List PulseDescriptor} {t : Nat} (h : wireTime tick seq ≤ t) :
    levelAt (wave tick seq) t = .low :=
  levelAt_of_waveLength_le ((waveLength_wave tick seq).trans_le h)

/-- Settles O57: the earlier descriptors' waveform is dropped, and the descriptor's two parts are read off. -/
theorem lineLevels : Obligations.LineLevels := fun tick before after pd _ =>
  ⟨levelAt_wave_of_first tick before after pd, levelAt_wave_of_second tick before after pd,
    levelAt_wave_of_wireTime_le⟩

/-- R183, R184: some descriptor covers each moment before the wire time. -/
theorem exists_covering (tick : Nat) {seq : List PulseDescriptor} {t : Nat} (h : t < wireTime tick seq) :
    ∃ before pd after k, seq = before ++ pd :: after ∧ t = wireTime tick before + k ∧
      k < pd.duration0 * tick + pd.duration1 * tick := by
  induction seq generalizing t with
  | nil => simp [wireTime, frameTicks] at h
  | cons pd seq ih =>
    rw [wireTime_cons] at h
    by_cases hhere : t < pd.duration0 * tick + pd.duration1 * tick
    · exact ⟨[], pd, seq, t, rfl, by simp [wireTime, frameTicks], hhere⟩
    · obtain ⟨before, pd', after, k, rfl, hk, hcover⟩ :=
        ih (t := t - (pd.duration0 * tick + pd.duration1 * tick)) (by omega)
      exact ⟨pd :: before, pd', after, k, rfl, by rw [wireTime_cons]; omega, hcover⟩

theorem wireTime_append_singleton (tick : Nat) (before : List PulseDescriptor) (pd : PulseDescriptor) :
    wireTime tick (before ++ [pd]) = wireTime tick before + pd.duration0 * tick + pd.duration1 * tick := by
  rw [← waveLength_wave, wave_append, waveLength_append, waveLength_wave, waveLength_wave, wireTime_cons]
  simp [wireTime, frameTicks, Nat.add_assoc]

/-- Settles O60: a moment is negative, or from the wire time on, or in one of the two parts of the descriptor that covers
it. -/
theorem lineIdlesLow : Obligations.LineIdlesLow := by
  intro tick e t
  refine ⟨lineLevel_of_neg _, fun hafter => ?_, fun hfrom hbefore => ?_⟩
  · obtain ⟨n, rfl⟩ := Int.eq_ofNat_of_zero_le (le_trans (Int.natCast_nonneg _) hafter)
    exact (lineLevel_natCast _ n).trans (levelAt_wave_of_wireTime_le (Int.ofNat_le.mp hafter))
  · obtain ⟨n, rfl⟩ := Int.eq_ofNat_of_zero_le hfrom
    obtain ⟨before, pd, after, k, hseq, rfl, hk⟩ := exists_covering tick (Int.ofNat_lt.mp hbefore)
    have hlevel (n : Nat) : e.lineLevel tick n = levelAt (wave tick (before ++ pd :: after)) n := by
      rw [← hseq]
      exact lineLevel_natCast _ n
    refine ⟨before, pd, after, hseq, by omega, ?_⟩
    rw [wireTime_append_singleton, hlevel]
    by_cases hpart : k < pd.duration0 * tick
    · exact .inl ⟨by omega, levelAt_wave_of_first tick before after pd hpart⟩
    · obtain ⟨j, rfl⟩ := Nat.exists_eq_add_of_le (Nat.not_lt.mp hpart)
      refine .inr ⟨by omega, by omega, ?_⟩
      rw [← Nat.add_assoc]
      exact levelAt_wave_of_second tick before after pd (by omega)

/-! ### The reset window -/

theorem wave_getLast? (tick : Nat) {seq : List PulseDescriptor} {pd : PulseDescriptor} (h : seq.getLast? = some pd) :
    (wave tick seq).getLast? = some (pd.level1, pd.duration1 * tick) := by
  obtain ⟨before, rfl⟩ := List.getLast?_eq_some_iff.mp h
  rw [wave_append]
  simp [wave, pulseWave]

/-- Settles O58: the last descriptor is a reset variant, and a truncating quotient is less than one divisor short. -/
theorem frameEndsInResetWindow : Obligations.FrameEndsInResetWindow := by
  intro tick t bytes htick hbytes
  refine ⟨?_, Nat.div_mul_le_self _ _, Nat.lt_div_mul_add htick⟩
  rw [wave_getLast? tick (frameOf_getLast? _ hbytes), resetPulse_canonical]
  rfl

/-! ### The packed descriptor -/

@[simp] theorem Level.ofBit_bit (l : Level) : Level.ofBit l.bit = l := by cases l <;> rfl

section Layout
variable (a : BitVec 1) (b : BitVec 15) (c : BitVec 1) (d : BitVec 15)

/-- R82: the four fields of a packed word, from its lowest bit up. -/
theorem extract_duration0 : (a ++ b ++ c ++ d : BitVec 32).extractLsb' 0 15 = d := BitVec.extractLsb'_append_eq_right

theorem extract_level0 : (a ++ b ++ c ++ d : BitVec 32).extractLsb' 15 1 = c :=
  (BitVec.extractLsb'_append_eq_of_le (xhi := a ++ b ++ c) (xlo := d) le_rfl).trans BitVec.extractLsb'_append_eq_right

theorem extract_duration1 : (a ++ b ++ c ++ d : BitVec 32).extractLsb' 16 15 = b :=
  (BitVec.extractLsb'_append_eq_of_le (xhi := a ++ b ++ c) (xlo := d) (by decide)).trans
    ((BitVec.extractLsb'_append_eq_of_le (xhi := a ++ b) (xlo := c) (by decide)).trans
      BitVec.extractLsb'_append_eq_right)

theorem extract_level1 : (a ++ b ++ c ++ d : BitVec 32).extractLsb' 31 1 = a :=
  (BitVec.extractLsb'_append_eq_of_le (xhi := a ++ b ++ c) (xlo := d) (by decide)).trans
    ((BitVec.extractLsb'_append_eq_of_le (xhi := a ++ b) (xlo := c) (by decide)).trans
      BitVec.extractLsb'_append_eq_left)

end Layout

/-- R82: the word of a descriptor that fits. -/
theorem packPulse_eq_some_iff {pd : PulseDescriptor} {v : BitVec 32} :
    packPulse pd = some v ↔ (pd.duration0 ≤ 32767 ∧ pd.duration1 ≤ 32767) ∧
      pd.level1.bit ++ BitVec.ofNat 15 pd.duration1 ++ pd.level0.bit ++ BitVec.ofNat 15 pd.duration0 = v := by
  rw [packPulse, Config.durMax]
  split <;> simp [*]

theorem unpackPulse_of_packed {pd : PulseDescriptor} {v : BitVec 32} (h : packPulse pd = some v) :
    unpackPulse v = pd := by
  obtain ⟨⟨h0, h1⟩, rfl⟩ := packPulse_eq_some_iff.mp h
  rw [unpackPulse, extract_level0, extract_duration0, extract_level1, extract_duration1, BitVec.toNat_ofNat,
    BitVec.toNat_ofNat, Nat.mod_eq_of_lt (by omega), Nat.mod_eq_of_lt (by omega), Level.ofBit_bit, Level.ofBit_bit]

/-- Settles O59: the word exists where both durations fit its fields, and there no bit of them is lost. -/
theorem packedPulseRoundTrip : Obligations.PackedPulseRoundTrip := by
  intro pd
  have hiff : (packPulse pd).isSome = true ↔ pd.duration0 ≤ 32767 ∧ pd.duration1 ≤ 32767 := by
    simp [Option.isSome_iff_exists, packPulse_eq_some_iff]
  refine ⟨hiff, fun hsound => hiff.mpr ?_, fun v => unpackPulse_of_packed⟩
  simp only [pulseSound, Bool.and_eq_true, durationFits_iff] at hsound
  omega

end Sys2Proof.Machine
end
